-- ==== Sys2Proof/Word.lean ====
section
/-! DEFINITION. The widths of the core: byte, word, register number, 12-bit address field (spec 00_scope.md R7, R9, R10;
30_encoding.md R71). Every value is unsigned (R10). -/

namespace Sys2Proof

/-- An 8-bit value: a byte of memory, a general register, a timer, a byte literal `kk`. -/
abbrev Byte := BitVec 8

/-- A 16-bit value: an instruction word, PC, I, a return address. -/
abbrev Word := BitVec 16

/-- The number of a general register, 0x0..0xF (10_state.md R22). -/
abbrev Reg := Fin 16

/-- The row count `n` of a draw, 0..15 (30_encoding.md R74). -/
abbrev RowCount := Fin 16

/-- The 12-bit address field `nnn` (30_encoding.md R71). -/
abbrev AddrField := BitVec 12

end Sys2Proof
end

