-- ==== Sys2Proof/Config.lean ====
section
/-! DEFINITION. What is fixed for one machine at its creation (00_scope.md R7, R8; 10_state.md R40;
60_exceptions.md R232), and the one value the spec leaves free, the random draw (44_index_random.md R184).
A `Config` is plain data held in the state, so that a claim about every state is a claim about every configuration. -/

namespace Sys2Proof

/-- Bytes of memory, addresses 0x000..0xFFF (R7 MEM_SIZE). -/
abbrev memSize : Nat := 4096

/-- Bytes of the font region 0x000..0x04F (R7). -/
abbrev fontSize : Nat := 80

/-- Where a program image is loaded, and where PC starts (R7). -/
abbrev loadAddress : Nat := 0x200

/-- The longest program image (R7 MAX_IMAGE: 4096 - 0x200 = 3584). -/
abbrev maxImage : Nat := memSize - loadAddress

/-- The fixed rate of the timer clock (R7 TIMER_HZ, R110). -/
abbrev timerHz : Nat := 60

/-- Which of two events due at the same instant the nominal schedule handles first (R112 TIE_ORDER). The spec leaves it
OPEN (92_eei_decisions.md D12); only the nominal schedule reads it. -/
inductive TieOrder where
  | timerFirst
  | instrFirst
deriving DecidableEq, Repr

/-- The configuration of R8 that is fixed for a whole run. DT0, ST0 and IMAGE, the other arguments of R8, are the
arguments of `State.create` and `loadImage`. -/
structure Config where
  /-- LEGACY_SHIFT: a shift first copies V[y] to V[x] (R40). -/
  legacyShift : Bool
  /-- INSTR_HZ, a positive natural; no instruction rule reads it (R110). -/
  instrHz : Nat
  /-- FONT, the 80 bytes at 0x000..0x04F at creation (R41, 92_eei_decisions.md D9). -/
  font : Vector Byte 80
  /-- STACK_LIMIT; `none` is an unbounded call stack (R32, R213). -/
  stackLimit : Option Nat
  /-- TIE_ORDER (R112). -/
  tieOrder : TieOrder
deriving DecidableEq, Repr

/-- The default FONT, 5 bytes a glyph, digits 0..F (93_implementation_defined.md G2).
PRESUMED: the spec takes these bytes from general knowledge (log entry 7). Unsafe for a claim that fixes them. -/
def defaultFont : Vector Byte 80 :=
  (#v[0xF0, 0x90, 0x90, 0x90, 0xF0, 0x20, 0x60, 0x20, 0x20, 0x70,
      0xF0, 0x10, 0xF0, 0x80, 0xF0, 0xF0, 0x10, 0xF0, 0x10, 0xF0] : Vector Byte 20) ++
  (#v[0x90, 0x90, 0xF0, 0x10, 0x10, 0xF0, 0x80, 0xF0, 0x10, 0xF0,
      0xF0, 0x80, 0xF0, 0x90, 0xF0, 0xF0, 0x10, 0x20, 0x40, 0x40] : Vector Byte 20) ++
  (#v[0xF0, 0x90, 0xF0, 0x90, 0xF0, 0xF0, 0x90, 0xF0, 0x10, 0xF0,
      0xF0, 0x90, 0xF0, 0x90, 0x90, 0xE0, 0x90, 0xE0, 0x90, 0xE0] : Vector Byte 20) ++
  (#v[0xF0, 0x80, 0x80, 0x80, 0xF0, 0xE0, 0x90, 0x90, 0x90, 0xE0,
      0xF0, 0x80, 0xF0, 0x80, 0xF0, 0xF0, 0x80, 0xF0, 0x80, 0x80] : Vector Byte 20)

/-- The default configuration of R8. `tieOrder` has no default in the spec, so it is an argument. -/
def Config.default (tie : TieOrder) : Config :=
  { legacyShift := false, instrHz := 700, font := defaultFont, stackLimit := none, tieOrder := tie }

/-- The free value of the n-th draw of a Cxkk that no replayed byte supplies (R184): any byte, under no law.
DESIGN CHOICE (log entry 2): an uninterpreted constant indexed by the number of draws already made. Safe. -/
opaque Config.freeDraw : Nat → Byte

end Sys2Proof
end

