-- ==== Sys2Proof/Syntax.lean ====
section
/-! DEFINITION. The 24 instructions (30_encoding.md R76, R77), one constructor a row of the opcode table, and the
reasons a word is no instruction (R80). -/

namespace Sys2Proof

/-- The decoded instruction. Register operands are always direct (R74). The comment is the row's word. -/
inductive Instr where
  | halt                                  -- 0000
  | cls                                   -- 00E0
  | ret                                   -- 00EE
  | jp (nnn : AddrField)                  -- 1nnn
  | call (nnn : AddrField)                -- 2nnn
  | seImm (x : Reg) (kk : Byte)           -- 3xkk
  | sneImm (x : Reg) (kk : Byte)          -- 4xkk
  | seReg (x y : Reg)                     -- 5xy0
  | ldImm (x : Reg) (kk : Byte)           -- 6xkk
  | addImm (x : Reg) (kk : Byte)          -- 7xkk
  | ldReg (x y : Reg)                     -- 8xy0
  | orReg (x y : Reg)                     -- 8xy1
  | andReg (x y : Reg)                    -- 8xy2
  | xorReg (x y : Reg)                    -- 8xy3
  | addReg (x y : Reg)                    -- 8xy4
  | sub (x y : Reg)                       -- 8xy5
  | shr (x y : Reg)                       -- 8xy6
  | subn (x y : Reg)                      -- 8xy7
  | shl (x y : Reg)                       -- 8xyE
  | sneReg (x y : Reg)                    -- 9xy0
  | ldI (nnn : AddrField)                 -- Annn
  | jpV0 (nnn : AddrField)                -- Bnnn
  | rnd (x : Reg) (kk : Byte)             -- Cxkk
  | drw (x y : Reg) (n : RowCount)        -- Dxyn
deriving DecidableEq, Repr

/-- Why a word is illegal: the rows of R80's table. -/
inductive IllegalWord where
  /-- op 0, not one of the three words 0x0000, 0x00E0, 0x00EE (R79). -/
  | op0NotListed
  /-- 5xyn with n not 0. -/
  | op5LowNibble
  /-- 8xyn with n one of 8..D, F. -/
  | op8MinorOpcode
  /-- 9xyn with n not 0. -/
  | op9LowNibble
  /-- op E has no row. -/
  | opE
  /-- op F has no row. -/
  | opF
deriving DecidableEq, Repr

/-- What decoding a word gives: "Instruction or DecodeFailure" (R76). -/
inductive Decoded where
  | instr (i : Instr)
  | failure (why : IllegalWord)
deriving DecidableEq, Repr

/-- The instruction of a decoding, if it is one. -/
def Decoded.toOption : Decoded → Option Instr
  | .instr i => some i
  | .failure _ => none

/-- The number of an instruction's row in the opcode map (R77, column #). -/
def Instr.rowNumber : Instr → Nat
  | .halt => 1
  | .cls => 2
  | .ret => 3
  | .jp _ => 4
  | .call _ => 5
  | .seImm _ _ => 6
  | .sneImm _ _ => 7
  | .seReg _ _ => 8
  | .ldImm _ _ => 9
  | .addImm _ _ => 10
  | .ldReg _ _ => 11
  | .orReg _ _ => 12
  | .andReg _ _ => 13
  | .xorReg _ _ => 14
  | .addReg _ _ => 15
  | .sub _ _ => 16
  | .shr _ _ => 17
  | .subn _ _ => 18
  | .shl _ _ => 19
  | .sneReg _ _ => 20
  | .ldI _ => 21
  | .jpV0 _ => 22
  | .rnd _ _ => 23
  | .drw _ _ _ => 24

end Sys2Proof
end

