-- ==== Sys2Proof/WellFormed.lean ====
section
/-! DEFINITION. The checks on what the host hands over at creation (00_scope.md R8). The bounds on an instruction's
operands (R74: x, y and n below 16, nnn below 4096, kk below 256) are carried by the types of `Instr`'s fields, so an
ill-formed instruction cannot be written and needs no check. -/

namespace Sys2Proof

/-- INSTR_HZ is a positive natural (R8). FONT's length, 80, is carried by its type. -/
def Config.wellFormed (c : Config) : Bool := decide (0 < c.instrHz)

/-- IMAGE has at most 3584 bytes (R8, R229). -/
def imageWellFormed (image : List Byte) : Bool := decide (image.length ≤ maxImage)

end Sys2Proof
end

