-- ==== Sys2Proof/Decode.lean ====
section
/-! DEFINITION. Instruction encoding (30_encoding.md): fields (R71), the opcode map (R77), classification (R76), and the
encoder written from the same map. Every instruction is one 16-bit word (R70), stored with its high byte at the lower
address (20_memory.md R51). -/

namespace Sys2Proof

/-! ### Fields (R71): defined for every word -/

/-- `op`, bits 15..12. -/
def fieldOp (w : Word) : BitVec 4 := w.extractLsb' 12 4

/-- `x`, bits 11..8, a register number. -/
def fieldX (w : Word) : Reg := (w.extractLsb' 8 4).toFin

/-- `y`, bits 7..4, a register number. -/
def fieldY (w : Word) : Reg := (w.extractLsb' 4 4).toFin

/-- `n`, bits 3..0: the minor opcode, or the row count of a draw. -/
def fieldN (w : Word) : BitVec 4 := w.extractLsb' 0 4

/-- `nnn`, bits 11..0. -/
def fieldNnn (w : Word) : AddrField := w.extractLsb' 0 12

/-- `kk`, bits 7..0. -/
def fieldKk (w : Word) : Byte := w.extractLsb' 0 8

/-! ### Classification (R76) -/

/-- Major opcode 0: three full words and nothing else (R79). -/
def decodeOp0 (w : Word) : Decoded :=
  if w = 0x0000 then .instr .halt
  else if w = 0x00E0 then .instr .cls
  else if w = 0x00EE then .instr .ret
  else .failure .op0NotListed

/-- Major opcode 8: the minor opcode n alone selects the instruction (R78). -/
def decodeOp8 (w : Word) : Decoded :=
  match (fieldN w).toNat with
  | 0x0 => .instr (.ldReg (fieldX w) (fieldY w))
  | 0x1 => .instr (.orReg (fieldX w) (fieldY w))
  | 0x2 => .instr (.andReg (fieldX w) (fieldY w))
  | 0x3 => .instr (.xorReg (fieldX w) (fieldY w))
  | 0x4 => .instr (.addReg (fieldX w) (fieldY w))
  | 0x5 => .instr (.sub (fieldX w) (fieldY w))
  | 0x6 => .instr (.shr (fieldX w) (fieldY w))
  | 0x7 => .instr (.subn (fieldX w) (fieldY w))
  | 0xE => .instr (.shl (fieldX w) (fieldY w))
  | _ => .failure .op8MinorOpcode

/-- Classification of a word: total, reading no state (R72, R76, R85). -/
def decode (w : Word) : Decoded :=
  match (fieldOp w).toNat with
  | 0x0 => decodeOp0 w
  | 0x1 => .instr (.jp (fieldNnn w))
  | 0x2 => .instr (.call (fieldNnn w))
  | 0x3 => .instr (.seImm (fieldX w) (fieldKk w))
  | 0x4 => .instr (.sneImm (fieldX w) (fieldKk w))
  | 0x5 => if fieldN w = 0 then .instr (.seReg (fieldX w) (fieldY w)) else .failure .op5LowNibble
  | 0x6 => .instr (.ldImm (fieldX w) (fieldKk w))
  | 0x7 => .instr (.addImm (fieldX w) (fieldKk w))
  | 0x8 => decodeOp8 w
  | 0x9 => if fieldN w = 0 then .instr (.sneReg (fieldX w) (fieldY w)) else .failure .op9LowNibble
  | 0xA => .instr (.ldI (fieldNnn w))
  | 0xB => .instr (.jpV0 (fieldNnn w))
  | 0xC => .instr (.rnd (fieldX w) (fieldKk w))
  | 0xD => .instr (.drw (fieldX w) (fieldY w) (fieldN w).toFin)
  | 0xE => .failure .opE
  | _ => .failure .opF

/-! ### The opcode map (R77) -/

/-- One row of R77: a word spells the row exactly when `(w & mask) == pattern`. -/
structure OpcodeRow where
  number : Nat
  mask : Word
  pattern : Word
deriving DecidableEq, Repr

/-- Does the word spell the row? -/
def OpcodeRow.spells (row : OpcodeRow) (w : Word) : Bool := w &&& row.mask == row.pattern

/-- The 24 rows of R77. -/
def opcodeTable : List OpcodeRow :=
  [ ⟨1, 0xFFFF, 0x0000⟩, ⟨2, 0xFFFF, 0x00E0⟩, ⟨3, 0xFFFF, 0x00EE⟩, ⟨4, 0xF000, 0x1000⟩,
    ⟨5, 0xF000, 0x2000⟩, ⟨6, 0xF000, 0x3000⟩, ⟨7, 0xF000, 0x4000⟩, ⟨8, 0xF00F, 0x5000⟩ ] ++
  [ ⟨9, 0xF000, 0x6000⟩, ⟨10, 0xF000, 0x7000⟩, ⟨11, 0xF00F, 0x8000⟩, ⟨12, 0xF00F, 0x8001⟩,
    ⟨13, 0xF00F, 0x8002⟩, ⟨14, 0xF00F, 0x8003⟩, ⟨15, 0xF00F, 0x8004⟩, ⟨16, 0xF00F, 0x8005⟩ ] ++
  [ ⟨17, 0xF00F, 0x8006⟩, ⟨18, 0xF00F, 0x8007⟩, ⟨19, 0xF00F, 0x800E⟩, ⟨20, 0xF00F, 0x9000⟩,
    ⟨21, 0xF000, 0xA000⟩, ⟨22, 0xF000, 0xB000⟩, ⟨23, 0xF000, 0xC000⟩, ⟨24, 0xF000, 0xD000⟩ ]

/-- Is the word an instruction by the opcode map (R75, R80)? -/
def legalWord (w : Word) : Bool := opcodeTable.any (fun row => row.spells w)

/-! ### The encoder, format by format (R73) -/

/-- ADDR: `oooo aaaa aaaa aaaa`. -/
def encodeAddr (op : BitVec 4) (nnn : AddrField) : Word := op ++ nnn

/-- REG_IMM: `oooo xxxx kkkk kkkk`. -/
def encodeRegImm (op : BitVec 4) (x : Reg) (kk : Byte) : Word := op ++ BitVec.ofFin (w := 4) x ++ kk

/-- REG_REG and REG_REG_N: `oooo xxxx yyyy ffff`, f the minor opcode or the row count. -/
def encodeRegReg (op : BitVec 4) (x y : Reg) (f : BitVec 4) : Word :=
  op ++ BitVec.ofFin (w := 4) x ++ BitVec.ofFin (w := 4) y ++ f

/-- The word of an instruction (R77). -/
def encode : Instr → Word
  | .halt => 0x0000
  | .cls => 0x00E0
  | .ret => 0x00EE
  | .jp nnn => encodeAddr 0x1 nnn
  | .call nnn => encodeAddr 0x2 nnn
  | .seImm x kk => encodeRegImm 0x3 x kk
  | .sneImm x kk => encodeRegImm 0x4 x kk
  | .seReg x y => encodeRegReg 0x5 x y 0x0
  | .ldImm x kk => encodeRegImm 0x6 x kk
  | .addImm x kk => encodeRegImm 0x7 x kk
  | .ldReg x y => encodeRegReg 0x8 x y 0x0
  | .orReg x y => encodeRegReg 0x8 x y 0x1
  | .andReg x y => encodeRegReg 0x8 x y 0x2
  | .xorReg x y => encodeRegReg 0x8 x y 0x3
  | .addReg x y => encodeRegReg 0x8 x y 0x4
  | .sub x y => encodeRegReg 0x8 x y 0x5
  | .shr x y => encodeRegReg 0x8 x y 0x6
  | .subn x y => encodeRegReg 0x8 x y 0x7
  | .shl x y => encodeRegReg 0x8 x y 0xE
  | .sneReg x y => encodeRegReg 0x9 x y 0x0
  | .ldI nnn => encodeAddr 0xA nnn
  | .jpV0 nnn => encodeAddr 0xB nnn
  | .rnd x kk => encodeRegImm 0xC x kk
  | .drw x y n => encodeRegReg 0xD x y (BitVec.ofFin (w := 4) n)

/-! ### Bytes in memory (R51) -/

/-- The word of two consecutive bytes, the lower address first: big-endian. -/
def wordOfBytes (first second : Byte) : Word := first ++ second

/-- The byte at the lower address: bits 15..8 of the word. -/
def firstByte (w : Word) : Byte := w.extractLsb' 8 8

/-- The byte at the higher address: bits 7..0 of the word. -/
def secondByte (w : Word) : Byte := w.extractLsb' 0 8

/-- The decoder on bytes: an instruction takes the first two (R70, R82); with fewer there is none. -/
def decodeBytes : List Byte → Option Decoded
  | first :: second :: _ => some (decode (wordOfBytes first second))
  | _ => none

/-- The 16 bits of a table row given as a number, every bit from `nbits` up being 0. -/
def tableWord (nbits w : Nat) : Word := BitVec.ofNat 16 (w % 2 ^ nbits)

/-- The instruction the decoder reads from a row's bits, laid out as memory holds them. -/
def decodeTableWord (nbits w : Nat) : Option Instr :=
  (decodeBytes [firstByte (tableWord nbits w), secondByte (tableWord nbits w)]).bind Decoded.toOption

end Sys2Proof
end

