-- ==== Sys2Proof/Machine/State.lean ====
section
/-! DEFINITION. The whole state of the core (10_state.md R20, R36, R37, R40, R41) as plain data, its terminal outcomes
(60_exceptions.md R210), and the machine as it is created (70_reset_and_hazards.md R241). -/

namespace Sys2Proof.Machine

/-- The fatal outcomes of R210 with their records (92_eei_decisions.md D13). The spec gives the state after each one, with
run status Faulted(e) (R117, R217), so a meaning that raises one answers that state and the fault stands in `State.status`;
no step answers `Host.Outcome.fault` (log entry 3, safe). -/
inductive Fault where
  /-- Code 1. Raised by the cycle when the word matches no instruction; records the word and its fetch address (R211).
  Safe: the run ends. -/
  | decodeFailure (word : Word) (fetchAddress : Word)
  /-- Code 2. Raised by 00EE on an empty stack; records its fetch address (R212). Safe: the run ends. -/
  | stackUnderflow (fetchAddress : Word)
  /-- Code 3. Raised by a fetch from an odd PC; records PC (R102). Safe: the run ends. -/
  | misalignedFetch (pc : Word)
  /-- Code 4. Raised by a fetch from a PC above 0xFFE; records PC (R102). Safe: the run ends. -/
  | fetchOutOfRange (pc : Word)
  /-- Code 5. Raised by Dxyn when a sprite row lies above 0xFFF; records that address and the fetch address (R191).
  Safe: the run ends. -/
  | memoryOutOfRange (address : Nat) (fetchAddress : Word)
  /-- Code 6. Raised by 2nnn on a full stack when STACK_LIMIT is set; records its fetch address (R213).
  Safe: the run ends. -/
  | stackOverflow (fetchAddress : Word)
deriving DecidableEq, Repr

/-- Why something is rejected with no effect at all. -/
inductive Refusal where
  /-- An instruction with no meaning yet, by its mnemonic. No arm of `exec` raises it. Safe. -/
  | notModelled (mnemonic : String)
  /-- Code 7 of R210. Raised by the image loader for an image of more than 3584 bytes, with its length; the machine is
  unchanged and no run starts (R229). Safe. -/
  | imageTooLarge (length : Nat)
deriving DecidableEq, Repr

/-- How the run stands (R36). -/
inductive RunStatus where
  | running
  | halted
  | faulted (e : Fault)
deriving DecidableEq, Repr

/-- The two kinds of event the Scheduler handles (40_execution_cycle.md R105). -/
inductive Event where
  | timer
  | instr
deriving DecidableEq, Repr

/-- The frame buffer: 32 rows of 64 pixels, row-major, `true` = on (R33). -/
abbrev FrameBuffer := Vector (Vector Bool 64) 32

/-- Every pixel off. -/
def FrameBuffer.blank : FrameBuffer := Vector.replicate 32 (Vector.replicate 64 false)

/-- Machine State (R20) with the configuration beside it (R40), the bookkeeping of R36 and R37, and the inputs a run takes
(R108, R231) as plain data. -/
structure State where
  /-- The configuration, fixed at creation (R40). -/
  config : Config
  /-- `mem`: the bytes that differ from what an unlisted address reads as, addresses rising (R39). -/
  mem : List Host.Cell
  /-- V0..VF (R22). -/
  v : Vector Byte 16
  /-- I, the index register (R30). -/
  i : Word
  /-- PC (R26). -/
  pc : Word
  /-- DT, the delay timer (R31). -/
  dt : Byte
  /-- ST, the sound timer (R31). -/
  st : Byte
  /-- The call stack, its top at the end of the list (R11, R32). -/
  stack : List Word
  /-- FB, the frame buffer (R33). -/
  fb : FrameBuffer
  /-- The run status (R36). -/
  status : RunStatus
  /-- The snapshots published to the render sink, oldest first (R37). -/
  trace : List FrameBuffer
  /-- The MODEL's own: the events still to come, next first; after them every event is an instruction event
  (log entry 1). -/
  events : List Event
  /-- The MODEL's own: random bytes to be replayed, next first (R184's seeded source; log entry 2). -/
  replay : List Byte
  /-- The MODEL's own: how many random bytes have been drawn (log entry 2). -/
  drawCount : Nat
deriving DecidableEq, Repr

/-- Creation (R241): the state of R41 for a configuration and the timers' launch values DT0 and ST0. Memory lists nothing,
so every address reads as its creation value. -/
def State.create (c : Config) (dt0 st0 : Byte) : State :=
  { config := c
    mem := []
    v := Vector.replicate 16 0x00
    i := 0x0000
    pc := 0x0200
    dt := dt0
    st := st0
    stack := []
    fb := FrameBuffer.blank
    status := .running
    trace := []
    events := []
    replay := []
    drawCount := 0 }

/-- The machine right after reset, which is creation (R240) with R8's defaults. TIE_ORDER, which the spec leaves OPEN, is
DESIGN CHOICE timer first (log entry 6); no step reads it. -/
def State.reset : State := State.create (Config.default .timerFirst) 0 0

end Sys2Proof.Machine
end

