-- ==== Sys2Proof/Machine/Ops.lean ====
section
/-! DEFINITION. The named operations over memory, registers, the stack, the frame buffer and the run status, taking a
fault, fetching a word, loading an image. Each reads or writes one home; the meanings call these. -/

namespace Sys2Proof.Machine

/-- What an instruction, a cycle or an event answers. -/
abbrev Result := Host.Outcome State Fault Refusal

/-! ### Memory as a list in canonical form -/

/-- What an address no entry lists reads as: its byte at creation (R41): FONT below 0x050, 0x00 elsewhere
(92_eei_decisions.md D6; log entry 8). -/
def unlistedByte (c : Config) (a : Nat) : Byte :=
  if h : a < fontSize then c.font[a] else 0x00

/-- The byte at an address. -/
def Memory.read (c : Config) : List Host.Cell → Nat → Byte
  | [], a => unlistedByte c a
  | (b, x) :: rest, a => if a = b then x else Memory.read c rest a

/-- The memory with one byte written, in canonical form again. -/
def Memory.write (c : Config) (a : Nat) (x : Byte) : List Host.Cell → List Host.Cell
  | [] => if x = unlistedByte c a then [] else [(a, x)]
  | (b, y) :: rest =>
    if a < b then
      if x = unlistedByte c a then (b, y) :: rest else (a, x) :: (b, y) :: rest
    else if a = b then
      if x = unlistedByte c a then rest else (a, x) :: rest
    else (b, y) :: Memory.write c a x rest

/-- The canonical form: addresses strictly rising, all below 0x1000, no entry equal to what its address reads as unlisted. -/
abbrev Memory.wf (c : Config) (m : List Host.Cell) : Prop :=
  m.Pairwise (fun p q => p.1 < q.1) ∧ ∀ p ∈ m, p.1 < memSize ∧ p.2 ≠ unlistedByte c p.1

/-- The byte the state holds at an address. -/
def State.byteAt (s : State) (a : Nat) : Byte := Memory.read s.config s.mem a

/-- MemRead(a, 1): no byte outside 0x000..0xFFF (R12, R53). Reading changes nothing (R54). -/
def State.memRead (s : State) (a : Nat) : Option Byte :=
  if a < memSize then some (s.byteAt a) else none

/-- MemRead(a, 2): big-endian; no word unless both bytes are inside 0x000..0xFFF (R12, R51, R53). -/
def State.memReadWord (s : State) (a : Nat) : Option Word :=
  match s.memRead a, s.memRead (a + 1) with
  | some high, some low => some (wordOfBytes high low)
  | _, _ => none

/-- The state with one byte of memory written: MemWrite's effect at an address of the address space (R12). -/
def State.putByte (s : State) (a : Nat) (x : Byte) : State :=
  { s with mem := Memory.write s.config a x s.mem }

/-- The state with bytes written at consecutive addresses. -/
def State.putBytes (s : State) : Nat → List Byte → State
  | _, [] => s
  | a, x :: rest => (s.putByte a x).putBytes (a + 1) rest

/-! ### Registers -/

/-- V[r] (R22). -/
def State.reg (s : State) (r : Reg) : Byte := s.v[r.val]

/-- V[r] <- b. No register is hardwired (R22). -/
def State.setReg (s : State) (r : Reg) (b : Byte) : State := { s with v := s.v.set r.val b }

/-- VF, the flag register (R23). -/
def vf : Reg := 0xF

/-- PC <- target. The target is not checked here; the next fetch checks it (R145). -/
def State.setPc (s : State) (target : Word) : State := { s with pc := target }

/-- I <- a (R30). -/
def State.setI (s : State) (a : Word) : State := { s with i := a }

/-- The fetch address of the instruction being executed: while it executes, PC holds its own address plus 2 (R26). -/
def State.fetchAddress (s : State) : Word := s.pc - 2

/-! ### The call stack: its top is the end of the list (R11, R32) -/

/-- push(a). -/
def State.push (s : State) (a : Word) : State := { s with stack := s.stack ++ [a] }

/-- pop(): the top and the state without it, or nothing for an empty stack. -/
def State.pop (s : State) : Option (Word × State) :=
  s.stack.getLast?.map (fun a => (a, { s with stack := s.stack.dropLast }))

/-- Is a push onto this stack an overflow? Only when STACK_LIMIT is some k and k entries are on it (R132, R213). -/
def State.stackFull (s : State) : Bool :=
  match s.config.stackLimit with
  | none => false
  | some k => s.stack.length == k

/-! ### The frame buffer -/

/-- FB <- fb. -/
def State.setFb (s : State) (fb : FrameBuffer) : State := { s with fb := fb }

/-- publish(FB): a copy of FB joins the snapshot trace (R230). -/
def State.publish (s : State) : State := { s with trace := s.trace ++ [s.fb] }

/-! ### The random source (R184, R231) -/

/-- The byte the next draw gives: the next replayed byte, or a free value (log entry 2). -/
def State.drawnByte (s : State) : Byte :=
  match s.replay with
  | b :: _ => b
  | [] => Config.freeDraw s.drawCount

/-- The state after a draw. -/
def State.afterDraw (s : State) : State :=
  { s with replay := s.replay.tail, drawCount := s.drawCount + 1 }

/-! ### Ending the run (R210, R217): the core's whole exception mechanism. There is no return from it (R218). -/

/-- `halt`: the normal end (R120). -/
def State.halt (s : State) : State := { s with status := .halted }

/-- `raise e`: the run status becomes Faulted(e) and nothing else changes: no state saved, no control transferred (R217). -/
def State.raise (s : State) (e : Fault) : State := { s with status := .faulted e }

/-- Has the run ended (R109)? -/
def State.ended (s : State) : Bool :=
  match s.status with
  | .running => false
  | .halted => true
  | .faulted _ => true

/-- The code of a fatal outcome (R210). -/
def Fault.code : Fault → Nat
  | .decodeFailure _ _ => 1
  | .stackUnderflow _ => 2
  | .misalignedFetch _ => 3
  | .fetchOutOfRange _ => 4
  | .memoryOutOfRange _ _ => 5
  | .stackOverflow _ => 6

/-- The code of a terminal outcome (R210); a running machine has none. -/
def RunStatus.code : RunStatus → Option Nat
  | .running => none
  | .halted => some 0
  | .faulted e => some e.code

/-- The code of a rejection before the run: 7 for an image that is too large (R210). No other rejection has one. -/
def Refusal.code : Refusal → Option Nat
  | .imageTooLarge _ => some 7
  | _ => none

/-- The code of R210's table that an answer carries, whether it is a terminal outcome in the run status of the next state
(log entry 3) or a rejection. -/
def Result.code : Result → Option Nat
  | .next s => s.status.code
  | .fault e => some e.code
  | .refused r => r.code

/-! ### Fetch (R101, R102) -/

/-- The word at PC, or the fetch's fault. Alignment is checked first (R102, R216). -/
def fetch (s : State) : Except Fault Word :=
  if s.pc.toNat % 2 ≠ 0 then .error (.misalignedFetch s.pc)
  else
    match s.memReadWord s.pc.toNat with
    | none => .error (.fetchOutOfRange s.pc)
    | some w => .ok w

/-! ### The image loader (R228, R229), the only writer of memory -/

/-- Copy an image to 0x200, or refuse one that is too large and leave the machine as it is. The spec allows one load,
after creation and before the first event (92_eei_decisions.md D19; log entry 11). -/
def loadImage (image : List Byte) (s : State) : Result :=
  if imageWellFormed image then .next (s.putBytes loadAddress image)
  else .refused (.imageTooLarge image.length)

/-! ### The next event (R108) -/

/-- The event handled next: the head of the events to come, and an instruction event after the last (log entry 1). -/
def State.nextEvent (s : State) : Event := s.events.headD .instr

/-- The state with its next event taken off. -/
def State.popEvent (s : State) : State := { s with events := s.events.tail }

/-! ### Placing a word to be fetched (log entry 12) -/

/-- Can a word be fetched at this PC (R102)? -/
def fetchable (pc : Word) : Bool := pc.toNat % 2 == 0 && decide (pc.toNat + 1 < memSize)

/-- The state in which the next step fetches and runs the word: the word at PC (at 0x200 where PC cannot be fetched from),
a running machine whose instruction clock is not gated, and an instruction event next. -/
def State.placeWord (s : State) (w : Word) : State :=
  let pc : Word := if fetchable s.pc then s.pc else 0x0200
  { s.putBytes pc.toNat [firstByte w, secondByte w] with
    pc := pc
    dt := 0
    status := .running
    events := if s.nextEvent = .instr then s.events else .instr :: s.events }

end Sys2Proof.Machine
end

