-- ==== Sys2Proof/Machine/Operands.lean ====
section
/-! DEFINITION. Operand forms (30_encoding.md R74): the zero-extended address, the shifted operand, the drawing
coordinates and the sprite's bytes. Register and byte operands are used as they stand. -/

namespace Sys2Proof.Machine

/-- zext_16(nnn) (R74). -/
def zextAddr (nnn : AddrField) : Word := nnn.setWidth 16

/-- The operand of a shift: V[x], or V[y] when LEGACY_SHIFT is set (R160, R162). -/
def State.shiftOperand (s : State) (x y : Reg) : Byte :=
  if s.config.legacyShift then s.reg y else s.reg x

/-- The column of a sprite's left edge: V[x] mod 64 (R190). -/
def State.column (s : State) (x : Reg) : Nat := (s.reg x).toNat % 64

/-- The row of a sprite's top edge: V[y] mod 32 (R190). -/
def State.row (s : State) (y : Reg) : Nat := (s.reg y).toNat % 32

/-- The first address of an n-row sprite at I that lies above 0xFFF, if there is one (R191). -/
def State.spriteOutOfRange (s : State) (n : RowCount) : Option Nat :=
  ((List.range n.val).map (fun r => s.i.toNat + r)).find? (fun a => decide (0xFFF < a))

/-- The n bytes at I, I+1, ..., row 0 first (R191). -/
def State.sprite (s : State) (n : RowCount) : List Byte :=
  (List.range n.val).map (fun r => s.byteAt (s.i.toNat + r))

end Sys2Proof.Machine
end

