-- ==== Sys2Proof/Machine/Flags.lean ====
section
/-! DEFINITION. The flag computations (10_state.md R34) and the one way a flag-writing instruction writes its results:
V[x] first, VF last (43_alu.md R151). -/

namespace Sys2Proof.Machine

/-- A flag as the byte VF holds. -/
def flagByte (f : Bool) : Byte := if f then 1 else 0

/-- 8xy4: the carry of the true 9-bit sum, (a + b) >> 8 (R150, R158). -/
def carryFlag (a b : Byte) : Byte := BitVec.ofNat 8 ((a.toNat + b.toNat) >>> 8)

/-- 8xy5, 8xy7: 1 when a - b does not borrow, that is a >= b (R159, R161). -/
def noBorrowFlag (a b : Byte) : Byte := flagByte (decide (b.toNat ≤ a.toNat))

/-- 8xy6: bit 0 of the operand before the shift (R160). -/
def lowBitFlag (v : Byte) : Byte := v &&& 1

/-- 8xyE: bit 7 of the operand before the shift (R162). -/
def highBitFlag (v : Byte) : Byte := (v >>> 7) &&& 1

/-- V[x] <- result, then VF <- flag, so that with x = F the flag is what stays (R151). -/
def State.setRegThenFlag (s : State) (x : Reg) (result flag : Byte) : State :=
  (s.setReg x result).setReg vf flag

end Sys2Proof.Machine
end

