-- ==== Sys2Proof/Machine/Alu.lean ====
section
/-! DEFINITION. Register loads and the ALU (43_alu.md). Results wrap modulo 256 (R150). Operands are read before any write,
V[x] is written, then VF (R151). None changes PC. -/

namespace Sys2Proof.Machine

/-- 6xkk LD Vx, kk (R152). -/
def execLdImm (x : Reg) (kk : Byte) (s : State) : Result := .next (s.setReg x kk)

/-- 7xkk ADD Vx, kk (R153): no flag. -/
def execAddImm (x : Reg) (kk : Byte) (s : State) : Result := .next (s.setReg x (s.reg x + kk))

/-- 8xy0 LD Vx, Vy (R154). -/
def execLdReg (x y : Reg) (s : State) : Result := .next (s.setReg x (s.reg y))

/-- 8xy1 OR Vx, Vy (R155): VF is not reset. -/
def execOrReg (x y : Reg) (s : State) : Result := .next (s.setReg x (s.reg x ||| s.reg y))

/-- 8xy2 AND Vx, Vy (R156). -/
def execAndReg (x y : Reg) (s : State) : Result := .next (s.setReg x (s.reg x &&& s.reg y))

/-- 8xy3 XOR Vx, Vy (R157). -/
def execXorReg (x y : Reg) (s : State) : Result := .next (s.setReg x (s.reg x ^^^ s.reg y))

/-- 8xy4 ADD Vx, Vy (R158): VF <- carry. -/
def execAddReg (x y : Reg) (s : State) : Result :=
  .next (s.setRegThenFlag x (s.reg x + s.reg y) (carryFlag (s.reg x) (s.reg y)))

/-- 8xy5 SUB Vx, Vy (R159): VF <- 1 when V[x] - V[y] does not borrow. -/
def execSub (x y : Reg) (s : State) : Result :=
  .next (s.setRegThenFlag x (s.reg x - s.reg y) (noBorrowFlag (s.reg x) (s.reg y)))

/-- 8xy6 SHR Vx, Vy (R160): VF <- the bit shifted out. -/
def execShr (x y : Reg) (s : State) : Result :=
  .next (s.setRegThenFlag x (s.shiftOperand x y >>> 1) (lowBitFlag (s.shiftOperand x y)))

/-- 8xy7 SUBN Vx, Vy (R161): VF <- 1 when V[y] - V[x] does not borrow. -/
def execSubn (x y : Reg) (s : State) : Result :=
  .next (s.setRegThenFlag x (s.reg y - s.reg x) (noBorrowFlag (s.reg y) (s.reg x)))

/-- 8xyE SHL Vx, Vy (R162): VF <- the bit shifted out. -/
def execShl (x y : Reg) (s : State) : Result :=
  .next (s.setRegThenFlag x (s.shiftOperand x y <<< 1) (highBitFlag (s.shiftOperand x y)))

end Sys2Proof.Machine
end

