-- ==== Sys2Proof/Machine/Control.lean ====
section
/-! DEFINITION. Jumps, the call and the skips (42_control_flow.md). On entry PC is the fetch address plus 2 (R103). -/

namespace Sys2Proof.Machine

/-- A skip: PC advances by a further 2 when the condition holds; the skipped word is neither read nor decoded (R144). -/
def State.skipIf (s : State) (c : Bool) : State := if c then s.setPc (s.pc + 2) else s

/-- 1nnn JP (R130). -/
def execJp (nnn : AddrField) (s : State) : Result := .next (s.setPc (zextAddr nnn))

/-- 2nnn CALL (R132): push(PC), PC <- nnn; StackOverflow on a full stack when STACK_LIMIT is set (R213). -/
def execCall (nnn : AddrField) (s : State) : Result :=
  if s.stackFull then .next (s.raise (.stackOverflow s.fetchAddress))
  else .next ((s.push s.pc).setPc (zextAddr nnn))

/-- 3xkk SE Vx, kk (R134). -/
def execSeImm (x : Reg) (kk : Byte) (s : State) : Result := .next (s.skipIf (s.reg x == kk))

/-- 4xkk SNE Vx, kk (R136). -/
def execSneImm (x : Reg) (kk : Byte) (s : State) : Result := .next (s.skipIf (s.reg x != kk))

/-- 5xy0 SE Vx, Vy (R138). -/
def execSeReg (x y : Reg) (s : State) : Result := .next (s.skipIf (s.reg x == s.reg y))

/-- 9xy0 SNE Vx, Vy (R140). -/
def execSneReg (x y : Reg) (s : State) : Result := .next (s.skipIf (s.reg x != s.reg y))

/-- Bnnn JP V0, nnn (R142): the sum does not wrap at 0xFFF. -/
def execJpV0 (nnn : AddrField) (s : State) : Result :=
  .next (s.setPc (zextAddr nnn + (s.reg 0).setWidth 16))

end Sys2Proof.Machine
end

