-- ==== Sys2Proof/Machine/Display.lean ====
section
/-! DEFINITION. The Display Compositor and the draw instruction (45_display.md). -/

namespace Sys2Proof.Machine

/-- FB[r][c]. -/
def FrameBuffer.pixel (fb : FrameBuffer) (r : Fin 32) (c : Fin 64) : Bool := fb[r.val][c.val]

/-- FB with FB[r][c] <- FB[r][c] ^ 1. -/
def FrameBuffer.flip (fb : FrameBuffer) (r : Fin 32) (c : Fin 64) : FrameBuffer :=
  fb.set r.val (fb[r.val].set c.val (!fb.pixel r c))

/-- Bit b of a sprite byte, the most significant first: `(byte >> (7 - b)) & 1` (R192). -/
def spriteBit (byte : Byte) (b : Nat) : Bool := byte.getLsbD (7 - b)

/-- A set sprite bit on the pixel (row mod 32, column mod 64): the pixel is inverted, and one that was on is a collision
(R192, R194). -/
def composeBit (row column : Nat) (acc : FrameBuffer × Bool) : FrameBuffer × Bool :=
  let r := Fin.ofNat 32 row
  let c := Fin.ofNat 64 column
  (acc.1.flip r c, acc.2 || acc.1.pixel r c)

/-- The bits of one sprite byte, bit 0 first (R192's inner loop). -/
def composeByte (byte : Byte) (row column : Nat) (acc : FrameBuffer × Bool) : FrameBuffer × Bool :=
  (List.range 8).foldl
    (fun acc b => if spriteBit byte b then composeBit row (column + b) acc else acc) acc

/-- The rows of a sprite from a given row on (R192's outer loop). -/
def composeRows (cx : Nat) : Nat → List Byte → FrameBuffer × Bool → FrameBuffer × Bool
  | _, [], acc => acc
  | row, byte :: rest, acc => composeRows cx (row + 1) rest (composeByte byte row cx acc)

/-- compose(sprite, cx, cy): the frame buffer after the XOR and whether any pixel was turned off (R192). -/
def compose (sprite : List Byte) (cx cy : Nat) (fb : FrameBuffer) : FrameBuffer × Bool :=
  composeRows cx cy sprite (fb, false)

/-- Dxyn DRW Vx, Vy, n (R190): every row address is checked before any pixel changes (R191); the coordinates are read
before VF is written (R196); the snapshot comes last (R230). -/
def execDrw (x y : Reg) (n : RowCount) (s : State) : Result :=
  match s.spriteOutOfRange n with
  | some a => .next (s.raise (.memoryOutOfRange a s.fetchAddress))
  | none =>
    let drawn := compose (s.sprite n) (s.column x) (s.row y) s.fb
    .next ((s.setFb drawn.1).setReg vf (flagByte drawn.2)).publish

end Sys2Proof.Machine
end

