-- ==== Sys2Proof/Machine/IndexRandom.lean ====
section
/-! DEFINITION. The index register and the random byte (44_index_random.md). -/

namespace Sys2Proof.Machine

/-- Annn LD I, nnn (R180). -/
def execLdI (nnn : AddrField) (s : State) : Result := .next (s.setI (zextAddr nnn))

/-- Cxkk RND Vx, kk (R182): one fresh draw, masked. -/
def execRnd (x : Reg) (kk : Byte) (s : State) : Result :=
  .next (s.afterDraw.setReg x (s.drawnByte &&& kk))

end Sys2Proof.Machine
end

