-- ==== Sys2Proof/Machine/System.lean ====
section
/-! DEFINITION. The 0x0 family (41_system.md). On entry PC is the fetch address plus 2 (R103). -/

namespace Sys2Proof.Machine

/-- 0000 HALT (R120): the run status becomes Halted; nothing else changes. -/
def execHalt (s : State) : Result := .next s.halt

/-- 00E0 CLS (R122): every pixel off; no snapshot is published. -/
def execCls (s : State) : Result := .next (s.setFb FrameBuffer.blank)

/-- 00EE RET (R124): PC <- pop(), or StackUnderflow on an empty stack. -/
def execRet (s : State) : Result :=
  match s.pop with
  | none => .next (s.raise (.stackUnderflow s.fetchAddress))
  | some (a, s') => .next (s'.setPc a)

end Sys2Proof.Machine
end

