-- ==== Sys2Proof/Machine/Cycle.lean ====
section
/-! DEFINITION. The fetch-decode-execute cycle and the events of the Scheduler (40_execution_cycle.md R100 to R109;
60_exceptions.md R220), and the nominal schedule (R112). -/

namespace Sys2Proof.Machine

/-- One cycle (R101): fetch, PC <- PC + 2, decode, execute. A fetch fault changes nothing but the status; a DecodeFailure
leaves PC advanced (R217). -/
def cycle (s : State) : Result :=
  match fetch s with
  | .error e => .next (s.raise e)
  | .ok w =>
    match decode w with
    | .failure _ => .next ((s.setPc (s.pc + 2)).raise (.decodeFailure w s.pc))
    | .instr i => exec i (s.setPc (s.pc + 2))

/-- An instruction-clock event (R106): one cycle when DT = 0; otherwise the event is used up and nothing changes. -/
def instructionEvent (s : State) : Result := if s.dt = 0 then cycle s else .next s

/-- A timer counts down, clamped at zero (R220). -/
def countDown (t : Byte) : Byte := if t = 0 then 0 else t - 1

/-- A timer-clock event (R107, R220): it never performs a cycle. -/
def timerEvent (s : State) : Result := .next { s with dt := countDown s.dt, st := countDown s.st }

/-- Handling one event (R108). Once the run has ended no event is handled: the state stays as it is (R109). -/
def handleEvent (e : Event) (s : State) : Result :=
  if s.ended then .next s
  else
    match e with
    | .timer => timerEvent s
    | .instr => instructionEvent s

/-- One iteration of the Scheduler (R105): the next event is taken and handled to completion. After the end of the run
nothing changes (R109; log entry 4). -/
def schedulerStep (s : State) : Result :=
  if s.ended then .next s else handleEvent s.nextEvent s.popEvent

/-- A run over a sequence of events (R108). -/
def runEvents : List Event → State → Result
  | [], s => .next s
  | e :: rest, s =>
    match handleEvent e s with
    | .next t => runEvents rest t
    | .fault r => .fault r
    | .refused r => .refused r

/-! ### The nominal schedule (R112): timing that no rule depends on (R252) -/

/-- The earlier of the timer event due at j / 60 s and the instruction event due at k / INSTR_HZ s; at the same instant,
the one TIE_ORDER puts first. -/
def nominalNext (c : Config) (j k : Nat) : Event :=
  if j * c.instrHz < k * timerHz then .timer
  else if k * timerHz < j * c.instrHz then .instr
  else
    match c.tieOrder with
    | .timerFirst => .timer
    | .instrFirst => .instr

/-- The next n events when timer event j and instruction event k are the next of their kinds; each clock is re-armed by
exactly one period. -/
def nominalFrom (c : Config) : Nat → Nat → Nat → List Event
  | 0, _, _ => []
  | n + 1, j, k =>
    match nominalNext c j k with
    | .timer => .timer :: nominalFrom c n (j + 1) k
    | .instr => .instr :: nominalFrom c n j (k + 1)

/-- The first n events of the nominal schedule: both first deadlines are one period after the start. -/
def nominalEvents (c : Config) (n : Nat) : List Event := nominalFrom c n 1 1

end Sys2Proof.Machine
end

