-- ==== Sys2Proof/Machine/Step.lean ====
section
/-! DEFINITION. One step: the Scheduler handles one event (40_execution_cycle.md R105, R117). -/

namespace Sys2Proof.Machine

/-- One event handled. It always answers a next state, whose status says whether the run goes on, has halted or has
faulted (R117). -/
def step (s : State) : Host.Outcome State Fault Refusal := schedulerStep s

/-- The state in which the very next step fetches and runs the given word: it stands for loading a program
(log entries 11 and 12). -/
def State.withFetchWord (s : State) (nbits w : Nat) : State := s.placeWord (tableWord nbits w)

end Sys2Proof.Machine
end

