-- ==== Sys2Proof/Safety.lean ====
section
/-! DEFINITION. The terms claims use: a safe run, the components of the state and what an instruction leaves alone, the
invariant of the machine, the pixels a sprite covers, fair event sequences. -/

namespace Sys2Proof.Machine

/-- The run has not ended in a fault (R244: a claim about the end of a run assumes this). -/
def State.unfaulted (s : State) : Prop := ∀ e, s.status ≠ .faulted e

/-- The components of the state, each register and all of memory among them. -/
inductive Component where
  | reg (r : Reg)
  | i
  | pc
  | dt
  | st
  | stack
  | fb
  | memory
  | status
  | trace
  | config
  | events
  | replay
  | drawCount
deriving DecidableEq, Repr

/-- The component reads the same in both states. Memory is compared by reading every address. -/
def Keeps (s t : State) : Component → Prop
  | .reg r => t.reg r = s.reg r
  | .i => t.i = s.i
  | .pc => t.pc = s.pc
  | .dt => t.dt = s.dt
  | .st => t.st = s.st
  | .stack => t.stack = s.stack
  | .fb => t.fb = s.fb
  | .memory => ∀ a, t.byteAt a = s.byteAt a
  | .status => t.status = s.status
  | .trace => t.trace = s.trace
  | .config => t.config = s.config
  | .events => t.events = s.events
  | .replay => t.replay = s.replay
  | .drawCount => t.drawCount = s.drawCount

/-- Every component not listed is unchanged. -/
def ChangesOnly (written : List Component) (s t : State) : Prop := ∀ c, c ∉ written → Keeps s t c

/-- What an instruction may write, fault or not (R24, R27, R30, R32, R33, R36, R37, R55). Nothing here is memory, a
timer, the configuration or the event order. -/
def mayWrite : Instr → List Component
  | .halt => [.status]
  | .cls => [.fb]
  | .ret => [.pc, .stack, .status]
  | .jp _ => [.pc]
  | .call _ => [.pc, .stack, .status]
  | .seImm _ _ => [.pc]
  | .sneImm _ _ => [.pc]
  | .seReg _ _ => [.pc]
  | .ldImm x _ => [.reg x]
  | .addImm x _ => [.reg x]
  | .ldReg x _ => [.reg x]
  | .orReg x _ => [.reg x]
  | .andReg x _ => [.reg x]
  | .xorReg x _ => [.reg x]
  | .addReg x _ => [.reg x, .reg vf]
  | .sub x _ => [.reg x, .reg vf]
  | .shr x _ => [.reg x, .reg vf]
  | .subn x _ => [.reg x, .reg vf]
  | .shl x _ => [.reg x, .reg vf]
  | .sneReg _ _ => [.pc]
  | .ldI _ => [.i]
  | .jpV0 _ => [.pc]
  | .rnd x _ => [.reg x, .replay, .drawCount]
  | .drw _ _ _ => [.reg vf, .fb, .trace, .status]

/-- What holds of every state a run reaches. -/
structure MachineInv (s : State) : Prop where
  /-- Memory is in canonical form. -/
  memory : Memory.wf s.config s.mem
  /-- The font region holds FONT (R42). -/
  font : ∀ a (h : a < fontSize), s.byteAt a = s.config.font[a]
  /-- I is at most 0xFFF (R30). -/
  index : s.i.toNat ≤ 0xFFF
  /-- PC is at most 0x10FE (R29). -/
  pc : s.pc.toNat ≤ 0x10FE
  /-- Every return address is even and at most 0x1000 (R29, R124). -/
  returns : ∀ a ∈ s.stack, a.toNat % 2 = 0 ∧ a.toNat ≤ 0x1000
  /-- The stack is no deeper than STACK_LIMIT (R213). -/
  depth : ∀ k, s.config.stackLimit = some k → s.stack.length ≤ k

/-- Pixel (r, c) lies under a set bit of the sprite drawn at column cx, row cy, with wrap (R192, R194): the set S of R193. -/
def Covers (sprite : List Byte) (cx cy : Nat) (r : Fin 32) (c : Fin 64) : Prop :=
  ∃ j byte b, sprite[j]? = some byte ∧ b < 8 ∧ spriteBit byte b = true ∧
    r.val = (cy + j) % 32 ∧ c.val = (cx + b) % 64

/-! ### The words of the formats, written as numbers from R71's bit positions; independent of the encoder -/

/-- `oooo aaaa aaaa aaaa`. -/
def addrWord (op : Nat) (nnn : AddrField) : Word := BitVec.ofNat 16 (op * 0x1000 + nnn.toNat)

/-- `oooo xxxx kkkk kkkk`. -/
def regImmWord (op : Nat) (x : Reg) (kk : Byte) : Word := BitVec.ofNat 16 (op * 0x1000 + x.val * 0x100 + kk.toNat)

/-- `oooo xxxx yyyy ffff`. -/
def regRegWord (op : Nat) (x y : Reg) (f : Nat) : Word :=
  BitVec.ofNat 16 (op * 0x1000 + x.val * 0x100 + y.val * 0x10 + f)

/-- Events of both kinds come again and again (R111). -/
def FairEvents (es : Nat → Event) : Prop :=
  (∀ n, ∃ m, n ≤ m ∧ es m = .timer) ∧ (∀ n, ∃ m, n ≤ m ∧ es m = .instr)

/-- The first n events to come in a state: its list, then instruction events (log entry 1). -/
def comingEvents (s : State) (n : Nat) : List Event := (List.range n).map (fun k => s.events.getD k .instr)

/-- n steps in a row. -/
def runSteps : Nat → State → Result
  | 0, s => .next s
  | n + 1, s =>
    match step s with
    | .next t => runSteps n t
    | .fault e => .fault e
    | .refused r => .refused r

/-- n instruction events in a row. -/
def instrEvents (n : Nat) : List Event := List.replicate n Event.instr

/-- One twentieth of a second of the nominal schedule at 700 Hz (R113): three timer periods, whose last deadline is a tie. -/
def nominalBlock : TieOrder → List Event
  | .instrFirst =>
    instrEvents 11 ++ Event.timer :: (instrEvents 12 ++ Event.timer :: (instrEvents 12 ++ [Event.timer]))
  | .timerFirst =>
    instrEvents 11 ++ Event.timer :: (instrEvents 12 ++ Event.timer :: (instrEvents 11 ++ [Event.timer, Event.instr]))

/-- How many timer events a sequence holds. -/
def timerCount (es : List Event) : Nat := es.count .timer

end Sys2Proof.Machine
end

