-- ==== Sys2Proof/Certificates/Slice0/Obligations.lean ====
section
/-! DEFINITION. The statements for the provers. Each docstring names the rules of spec/ it formalises. On entry to `exec`
PC is the fetch address plus 2 (R103), so the fetch address is `s.pc - 2` (log entry 5). "Changes only" compares every
component of the state, each register, and every byte of memory. -/

open Sys2Proof Sys2Proof.Machine

/-! ### Encoding -/

/-- Words of every family from spec/95_test_vectors.md and R77, decoded. -/
def Obligations.SampleWordsDecode : Prop :=
  (decode 0x0000 = .instr .halt ∧ decode 0x00E0 = .instr .cls ∧ decode 0x00EE = .instr .ret) ∧
  (decode 0x1ABC = .instr (.jp 0xABC) ∧ decode 0x2300 = .instr (.call 0x300) ∧
    decode 0xBFFF = .instr (.jpV0 0xFFF)) ∧
  (decode 0x3342 = .instr (.seImm 3 0x42) ∧ decode 0x4312 = .instr (.sneImm 3 0x12) ∧
    decode 0x5120 = .instr (.seReg 1 2) ∧ decode 0x9120 = .instr (.sneReg 1 2)) ∧
  (decode 0x6A2B = .instr (.ldImm 0xA 0x2B) ∧ decode 0x7203 = .instr (.addImm 2 0x03) ∧
    decode 0x8010 = .instr (.ldReg 0 1) ∧ decode 0x8F14 = .instr (.addReg 0xF 1) ∧
    decode 0x801E = .instr (.shl 0 1)) ∧
  (decode 0xABBC = .instr (.ldI 0xBBC) ∧ decode 0xCFFF = .instr (.rnd 0xF 0xFF) ∧
    decode 0xD125 = .instr (.drw 1 2 5)) ∧
  (decode 0x0100 = .failure .op0NotListed ∧ decode 0x512F = .failure .op5LowNibble ∧
    decode 0x8008 = .failure .op8MinorOpcode ∧ decode 0x9AB1 = .failure .op9LowNibble ∧
    decode 0xE09E = .failure .opE ∧ decode 0xF065 = .failure .opF)

/-- R71: the fields of every word, by the shifts and masks of the table, and how they overlap. -/
def Obligations.FieldsOfEveryWord : Prop :=
  ∀ w : Word,
    (fieldOp w).toNat = (w.toNat >>> 12) &&& 0xF ∧
    (fieldX w).val = (w.toNat >>> 8) &&& 0xF ∧
    (fieldY w).val = (w.toNat >>> 4) &&& 0xF ∧
    (fieldN w).toNat = w.toNat &&& 0xF ∧
    (fieldNnn w).toNat = w.toNat &&& 0xFFF ∧
    (fieldKk w).toNat = w.toNat &&& 0xFF ∧
    (fieldNnn w).toNat = (fieldX w).val * 256 + (fieldY w).val * 16 + (fieldN w).toNat ∧
    (fieldKk w).toNat = (fieldY w).val * 16 + (fieldN w).toNat

/-- R71, R73, R76: decoding an instruction's word gives the instruction back, whatever its operands. -/
def Obligations.DecodeOfEncodeIsIdentity : Prop := ∀ i : Instr, decode (encode i) = .instr i

/-- R76, R77: a legal word is the encoding of what it decodes to, so no bit of it is ignored. -/
def Obligations.EncodeOfDecodeIsIdentity : Prop :=
  ∀ (w : Word) (i : Instr), decode w = .instr i → encode i = w

/-- R75, R77: classification agrees with the opcode map row by row, a word matching no row fails, and no word matches two
rows. That a word matching no row fails is the spec's decision D1; that no word matches two rows is its own derivation. -/
def Obligations.ClassificationAgreesWithTheOpcodeMap : Prop :=
  (∀ (w : Word), ∀ row ∈ opcodeTable,
    (row.spells w = true ↔ ∃ i, decode w = .instr i ∧ i.rowNumber = row.number)) ∧
  (∀ w : Word, legalWord w = false ↔ ∃ why, decode w = .failure why) ∧
  (∀ (w : Word), ∀ r ∈ opcodeTable, ∀ r' ∈ opcodeTable, r.spells w = true → r'.spells w = true → r = r')

/-- R78: in the 0x8 family the low nibble alone selects the instruction, with x and y free. -/
def Obligations.LowNibbleSelectsInTheEightFamily : Prop :=
  ∀ w : Word, (fieldOp w).toNat = 8 →
    ((fieldN w).toNat = 0 → decode w = .instr (.ldReg (fieldX w) (fieldY w))) ∧
    ((fieldN w).toNat = 1 → decode w = .instr (.orReg (fieldX w) (fieldY w))) ∧
    ((fieldN w).toNat = 2 → decode w = .instr (.andReg (fieldX w) (fieldY w))) ∧
    ((fieldN w).toNat = 3 → decode w = .instr (.xorReg (fieldX w) (fieldY w))) ∧
    ((fieldN w).toNat = 4 → decode w = .instr (.addReg (fieldX w) (fieldY w))) ∧
    ((fieldN w).toNat = 5 → decode w = .instr (.sub (fieldX w) (fieldY w))) ∧
    ((fieldN w).toNat = 6 → decode w = .instr (.shr (fieldX w) (fieldY w))) ∧
    ((fieldN w).toNat = 7 → decode w = .instr (.subn (fieldX w) (fieldY w))) ∧
    ((fieldN w).toNat = 14 → decode w = .instr (.shl (fieldX w) (fieldY w))) ∧
    ((8 ≤ (fieldN w).toNat ∧ (fieldN w).toNat ≤ 13) ∨ (fieldN w).toNat = 15 →
      decode w = .failure .op8MinorOpcode)

/-- R79, R80: the illegal words, range by range (the spec's decision D1 for op 0, 5 and 9). -/
def Obligations.IllegalWordsAreTheListedRanges : Prop :=
  ∀ w : Word,
    (decode w = .failure .op0NotListed ↔
      (fieldOp w).toNat = 0 ∧ w ≠ 0x0000 ∧ w ≠ 0x00E0 ∧ w ≠ 0x00EE) ∧
    (decode w = .failure .op5LowNibble ↔ (fieldOp w).toNat = 5 ∧ (fieldN w).toNat ≠ 0) ∧
    (decode w = .failure .op8MinorOpcode ↔
      (fieldOp w).toNat = 8 ∧ 8 ≤ (fieldN w).toNat ∧ (fieldN w).toNat ≠ 14) ∧
    (decode w = .failure .op9LowNibble ↔ (fieldOp w).toNat = 9 ∧ (fieldN w).toNat ≠ 0) ∧
    (decode w = .failure .opE ↔ 0xE000 ≤ w.toNat ∧ w.toNat ≤ 0xEFFF) ∧
    (decode w = .failure .opF ↔ 0xF000 ≤ w.toNat)

/-! ### Reset, launch, the image loader -/

/-- R241, R41: creation, for every configuration and launch value of the timers. Memory past the font, the empty stack and
the blank frame buffer are the spec's decisions D6 and D7 (log entries 8 and 9). -/
def Obligations.CreationState : Prop :=
  ∀ (c : Config) (dt0 st0 : Byte),
    (∀ a (h : a < 80), (State.create c dt0 st0).byteAt a = c.font[a]) ∧
    (∀ a, 80 ≤ a → (State.create c dt0 st0).byteAt a = 0) ∧
    (∀ r, (State.create c dt0 st0).reg r = 0) ∧
    (State.create c dt0 st0).i = 0 ∧ (State.create c dt0 st0).pc = 0x200 ∧
    (State.create c dt0 st0).dt = dt0 ∧ (State.create c dt0 st0).st = st0 ∧
    (State.create c dt0 st0).stack = [] ∧
    (∀ r col, (State.create c dt0 st0).fb.pixel r col = false) ∧
    (State.create c dt0 st0).status = .running ∧ (State.create c dt0 st0).trace = [] ∧
    (State.create c dt0 st0).config = c

/-- R229: an image longer than 3584 bytes is refused, and nothing is loaded; one of at most 3584 bytes is accepted. -/
def Obligations.OversizedImageIsRejected : Prop :=
  ∀ (image : List Byte) (s : State),
    (3584 < image.length → loadImage image s = .refused (.imageTooLarge image.length)) ∧
    (image.length ≤ 3584 → ∃ t, loadImage image s = .next t)

/-- R228: the image is copied verbatim to 0x200, every other byte keeps its value, nothing else changes. -/
def Obligations.LoaderCopiesTheImage : Prop :=
  ∀ (image : List Byte) (s : State), image.length ≤ 3584 → Memory.wf s.config s.mem →
    ∃ t, loadImage image s = .next t ∧
      (∀ j (h : j < image.length), t.byteAt (0x200 + j) = image[j]) ∧
      (∀ a, a < 0x200 ∨ 0x200 + image.length ≤ a → t.byteAt a = s.byteAt a) ∧
      Memory.wf t.config t.mem ∧ ChangesOnly [.memory] s t

/-! ### The cycle and the Scheduler -/

/-- R100: an open instruction event fetches the big-endian word at PC, advances PC by 2, classifies it and executes it;
the Scheduler takes that event off the coming events (log entry 1). -/
def Obligations.StepRunsTheDecodedInstruction : Prop :=
  ∀ (s : State) (i : Instr),
    s.status = .running → s.nextEvent = .instr → s.dt = 0 →
    s.pc.toNat % 2 = 0 → s.pc.toNat ≤ 0xFFE →
    decode (wordOfBytes (s.byteAt s.pc.toNat) (s.byteAt (s.pc.toNat + 1))) = .instr i →
    step s = exec i (s.popEvent.setPc (s.pc + 2))

/-- R51: a fetch sees the byte at PC as the high byte of the word and the byte at PC + 1 as the low one. -/
def Obligations.FetchIsBigEndian : Prop :=
  ∀ s : State, s.pc.toNat % 2 = 0 → s.pc.toNat ≤ 0xFFE →
    ∃ w, fetch s = .ok w ∧
      w.toNat = 256 * (s.byteAt s.pc.toNat).toNat + (s.byteAt (s.pc.toNat + 1)).toNat

/-- R102, R216 (the spec's decisions D2, D3, D16): the fetch's faults, alignment first; each leaves PC and everything else.
A step whose event is an instruction event with DT = 0 raises them, and takes its event (log entry 1). -/
def Obligations.FetchFaults : Prop :=
  ∀ s : State,
    (s.pc.toNat % 2 = 1 →
      ∃ t, cycle s = .next t ∧ t.status = .faulted (.misalignedFetch s.pc) ∧ ChangesOnly [.status] s t) ∧
    (s.pc.toNat % 2 = 0 → 0xFFE < s.pc.toNat →
      ∃ t, cycle s = .next t ∧ t.status = .faulted (.fetchOutOfRange s.pc) ∧ ChangesOnly [.status] s t) ∧
    (s.status = .running → s.nextEvent = .instr → s.dt = 0 →
      (s.pc.toNat % 2 = 1 →
        ∃ t, step s = .next t ∧ t.status = .faulted (.misalignedFetch s.pc) ∧ t.events = s.events.tail ∧
          ChangesOnly [.status, .events] s t) ∧
      (s.pc.toNat % 2 = 0 → 0xFFE < s.pc.toNat →
        ∃ t, step s = .next t ∧ t.status = .faulted (.fetchOutOfRange s.pc) ∧ t.events = s.events.tail ∧
          ChangesOnly [.status, .events] s t))

/-- R211 (its record is the spec's decision D13): an illegal word ends the run with the word and its fetch address;
PC has advanced to a + 2 and nothing else has changed; a step does so in an instruction event with DT = 0, taking that event
(log entry 1). -/
def Obligations.IllegalWordRaisesDecodeFailure : Prop :=
  ∀ (s : State) (w : Word), fetch s = .ok w → legalWord w = false →
    (∃ t, cycle s = .next t ∧ t.status = .faulted (.decodeFailure w s.pc) ∧ t.pc = s.pc + 2 ∧
      ChangesOnly [.pc, .status] s t) ∧
    (s.status = .running → s.nextEvent = .instr → s.dt = 0 →
      ∃ t, step s = .next t ∧ t.status = .faulted (.decodeFailure w s.pc) ∧ t.pc = s.pc + 2 ∧
        t.events = s.events.tail ∧ ChangesOnly [.pc, .status, .events] s t)

/-- R106: an instruction event performs one cycle when DT = 0 and does nothing when DT is not 0. A step whose next event is
an instruction event uses that event up either way (the events' form in the state is the model's own, log entry 1). -/
def Obligations.DelayTimerGatesAnInstructionEvent : Prop :=
  ∀ s : State, s.status = .running →
    (s.dt = 0 → handleEvent .instr s = cycle s) ∧ (s.dt ≠ 0 → handleEvent .instr s = .next s) ∧
    (s.nextEvent = .instr → s.dt = 0 → step s = cycle s.popEvent) ∧
    (s.nextEvent = .instr → s.dt ≠ 0 →
      step s = .next s.popEvent ∧ s.popEvent.events = s.events.tail ∧ ChangesOnly [.events] s s.popEvent)

/-- R107, R220: a timer event decrements each timer that is nonzero, clamped at zero, and performs no cycle. A step whose
next event is a timer event does just that and uses the event up (log entry 1). -/
def Obligations.TimerEventCountsBothTimersDown : Prop :=
  ∀ s : State, s.status = .running →
    (∃ t, handleEvent .timer s = .next t ∧ t.dt.toNat = s.dt.toNat - 1 ∧ t.st.toNat = s.st.toNat - 1 ∧
      ChangesOnly [.dt, .st] s t) ∧
    (s.nextEvent = .timer →
      ∃ t, step s = .next t ∧ t.dt.toNat = s.dt.toNat - 1 ∧ t.st.toNat = s.st.toNat - 1 ∧
        t.events = s.events.tail ∧ ChangesOnly [.dt, .st, .events] s t)

/-- R116: every cycle completes or ends the run within its event, so each instruction, cycle, event and step answers a state.
That a fault is a state whose status says so is R117 as the model reads it (log entry 3); that an ended run answers its state
again, where R117 says no other state follows, is the model's choice (log entry 4). -/
def Obligations.EveryEventYieldsAState : Prop :=
  (∀ (i : Instr) (s : State), ∃ t, exec i s = .next t) ∧
  (∀ s : State, ∃ t, cycle s = .next t) ∧
  (∀ (e : Event) (s : State), ∃ t, handleEvent e s = .next t) ∧
  (∀ s : State, ∃ t, step s = .next t)

/-- R109, R117 (the spec's decision D17; answering the same state is log entry 4): after the end of a run no event of
either kind changes anything. -/
def Obligations.AnEndedRunNeverChanges : Prop :=
  ∀ s : State, s.status ≠ .running →
    step s = .next s ∧ ∀ es, runEvents es s = .next s

/-- R120, R36: the only way to Halted is an instruction event, DT = 0, fetching the word 0x0000. -/
def Obligations.OnlyTheZeroWordHalts : Prop :=
  ∀ s t : State, step s = .next t → s.status = .running → t.status = .halted →
    s.nextEvent = .instr ∧ s.dt = 0 ∧ fetch s = .ok 0x0000

/-- R210, R216: the only ways to a fault, each with its record, in an instruction event with DT = 0. Records and order are
the spec's decisions D13 and D16. -/
def Obligations.OnlyTheListedFaultsEndARun : Prop :=
  ∀ (s t : State) (f : Fault), step s = .next t → s.status = .running → t.status = .faulted f →
    s.nextEvent = .instr ∧ s.dt = 0 ∧
    ((f = .misalignedFetch s.pc ∧ s.pc.toNat % 2 = 1) ∨
     (f = .fetchOutOfRange s.pc ∧ s.pc.toNat % 2 = 0 ∧ 0xFFE < s.pc.toNat) ∨
     (∃ w, fetch s = .ok w ∧
       ((f = .decodeFailure w s.pc ∧ legalWord w = false) ∨
        (f = .stackUnderflow s.pc ∧ decode w = .instr .ret ∧ s.stack = []) ∨
        (f = .stackOverflow s.pc ∧ (∃ nnn, decode w = .instr (.call nnn)) ∧
          s.config.stackLimit = some s.stack.length) ∨
        (∃ x y n r, decode w = .instr (.drw x y n) ∧ r < n.val ∧ 0xFFF < s.i.toNat + r ∧
          f = .memoryOutOfRange (s.i.toNat + r) s.pc))))

/-- R114: with DT nonzero, however many instruction events come, nothing but the timers changes until the timer events
have brought DT to zero. -/
def Obligations.NonzeroDelayTimerPausesExecution : Prop :=
  ∀ (es : List Event) (s : State), s.status = .running → timerCount es < s.dt.toNat →
    ∃ t, runEvents es s = .next t ∧ t.dt.toNat = s.dt.toNat - timerCount es ∧
      t.st.toNat = s.st.toNat - timerCount es ∧ ChangesOnly [.dt, .st] s t

/-- R111, R114: under a fair event order the pause ends: DT reaches 0, everything but the two timers as it was. -/
def Obligations.FairEventsEndThePause : Prop :=
  ∀ (es : Nat → Event) (s : State), FairEvents es → s.status = .running →
    ∃ n t, runEvents ((List.range n).map es) s = .next t ∧ t.dt = 0 ∧ ChangesOnly [.dt, .st] s t

/-- R113: the nominal schedule at 700 Hz, under either tie order: 11, 12, 12 instruction events are due in each half-open
timer period, again and again, every third timer deadline a tie, whose instruction event stands before the timer event or
after it as TIE_ORDER says (so with the timer first the list reads 11, timer, 12, timer, 11, timer, one). The phase and the
re-arming are the spec's own choices (R112, decision D12; log entry 14), and TIE_ORDER is OPEN (log entry 6). -/
def Obligations.NominalScheduleAt700Hz : Prop :=
  ∀ (c : Config) (m : Nat), c.instrHz = 700 →
    nominalEvents c (38 * m) = (List.replicate m (nominalBlock c.tieOrder)).flatten

/-- The word that `withFetchWord` places is the one the next step runs, at PC, or at 0x200 where PC cannot be fetched from
(the model's own, log entry 12). -/
def Obligations.PlacedWordRunsNext : Prop :=
  ∀ (s : State) (w : Nat) (i : Instr), Memory.wf s.config s.mem → decode (BitVec.ofNat 16 w) = .instr i →
    ∃ u, step (s.withFetchWord 16 w) = exec i u ∧ u.v = s.v ∧ u.i = s.i ∧ u.stack = s.stack ∧ u.fb = s.fb ∧
      u.config = s.config ∧ u.status = .running ∧
      (s.pc.toNat % 2 = 0 → s.pc.toNat ≤ 0xFFE → u.pc = s.pc + 2) ∧
      (s.pc.toNat % 2 = 1 ∨ 0xFFE < s.pc.toNat → u.pc = 0x202)

/-! ### The 0x0 family -/

/-- R120: 0x0000 and no other word halts; HALT changes only the run status; a zero word at an even PC halts with PC at
a + 2. That a halted machine handles no event, its timers frozen, is the spec's decision D17 (answering the same state is
log entry 4). -/
def Obligations.HaltEndsTheRun : Prop :=
  (∀ w : Word, decode w = .instr .halt ↔ w = 0x0000) ∧
  (∀ s : State, ∃ t, exec .halt s = .next t ∧ t.status = .halted ∧ ChangesOnly [.status] s t) ∧
  (∀ s : State, s.pc.toNat % 2 = 0 → s.pc.toNat ≤ 0xFFE → s.byteAt s.pc.toNat = 0 →
    s.byteAt (s.pc.toNat + 1) = 0 →
    ∃ t, cycle s = .next t ∧ t.status = .halted ∧ t.pc = s.pc + 2 ∧ ChangesOnly [.pc, .status] s t) ∧
  (∀ (s : State) (e : Event), s.status = .halted → handleEvent e s = .next s)

/-- R122: CLS turns every pixel off and changes nothing else, VF and the published snapshots included; that it publishes
none is the spec's decision D14 (log entry 15). -/
def Obligations.ClsClearsTheFrameBuffer : Prop :=
  (∀ w : Word, decode w = .instr .cls ↔ w = 0x00E0) ∧
  ∀ s : State, ∃ t, exec .cls s = .next t ∧ (∀ r c, t.fb.pixel r c = false) ∧ ChangesOnly [.fb] s t

/-- R124: RET pops the last return address into PC. -/
def Obligations.RetPopsThePc : Prop :=
  (∀ w : Word, decode w = .instr .ret ↔ w = 0x00EE) ∧
  ∀ (s : State) (rest : List Word) (a : Word), s.stack = rest ++ [a] →
    ∃ t, exec .ret s = .next t ∧ t.pc = a ∧ t.stack = rest ∧ ChangesOnly [.pc, .stack] s t

/-- R124, R212: RET on an empty stack raises StackUnderflow with its fetch address (the record is decision D13);
PC stays at a + 2. -/
def Obligations.RetOnEmptyStackUnderflows : Prop :=
  ∀ s : State, s.stack = [] →
    ∃ t, exec .ret s = .next t ∧ t.status = .faulted (.stackUnderflow (s.pc - 2)) ∧ ChangesOnly [.status] s t

/-! ### Control flow -/

/-- R130: JP sets PC to nnn and changes nothing else; a JP to its own address loops for ever, whatever events come,
which is the spec's own derivation (from R130 and R111). -/
def Obligations.JumpSetsPcAndToItselfLoops : Prop :=
  (∀ nnn : AddrField, decode (addrWord 1 nnn) = .instr (.jp nnn)) ∧
  (∀ (nnn : AddrField) (s : State),
    ∃ t, exec (.jp nnn) s = .next t ∧ t.pc.toNat = nnn.toNat ∧ ChangesOnly [.pc] s t) ∧
  (∀ (nnn : AddrField) (s : State) (es : List Event), s.status = .running → s.pc.toNat = nnn.toNat →
    fetch s = .ok (addrWord 1 nnn) →
    ∃ t, runEvents es s = .next t ∧ ChangesOnly [.dt, .st] s t)

/-- R132: CALL pushes the address of the next instruction and sets PC to nnn, unless the stack is full. -/
def Obligations.CallPushesAndJumps : Prop :=
  (∀ nnn : AddrField, decode (addrWord 2 nnn) = .instr (.call nnn)) ∧
  ∀ (nnn : AddrField) (s : State), s.config.stackLimit ≠ some s.stack.length →
    ∃ t, exec (.call nnn) s = .next t ∧ t.pc.toNat = nnn.toNat ∧ t.stack = s.stack ++ [s.pc] ∧
      ChangesOnly [.pc, .stack] s t

/-- R213 (the spec's decision D5): CALL on a stack of STACK_LIMIT entries raises StackOverflow; nothing is pushed. -/
def Obligations.CallOnFullStackOverflows : Prop :=
  ∀ (nnn : AddrField) (s : State), s.config.stackLimit = some s.stack.length →
    ∃ t, exec (.call nnn) s = .next t ∧ t.status = .faulted (.stackOverflow (s.pc - 2)) ∧
      ChangesOnly [.status] s t

/-- R124, R132: a RET after a CALL resumes after the CALL with the state as it was. -/
def Obligations.RetUndoesCall : Prop :=
  ∀ (nnn : AddrField) (s : State), s.config.stackLimit ≠ some s.stack.length →
    ∃ t u, exec (.call nnn) s = .next t ∧ exec .ret t = .next u ∧ ChangesOnly [] s u

/-- R134, R136: the skips on a byte literal. -/
def Obligations.SkipsOnAByte : Prop :=
  ∀ (x : Reg) (kk : Byte),
    decode (regImmWord 3 x kk) = .instr (.seImm x kk) ∧ decode (regImmWord 4 x kk) = .instr (.sneImm x kk) ∧
    ∀ s : State,
      (∃ t, exec (.seImm x kk) s = .next t ∧
        t.pc = (if (s.reg x).toNat = kk.toNat then s.pc + 2 else s.pc) ∧ ChangesOnly [.pc] s t) ∧
      (∃ t, exec (.sneImm x kk) s = .next t ∧
        t.pc = (if (s.reg x).toNat = kk.toNat then s.pc else s.pc + 2) ∧ ChangesOnly [.pc] s t)

/-- R138, R140: the skips on two registers, and the words with a nonzero low nibble, which are no skips (decision D1). -/
def Obligations.SkipsOnRegisters : Prop :=
  ∀ (x y : Reg),
    decode (regRegWord 5 x y 0) = .instr (.seReg x y) ∧ decode (regRegWord 9 x y 0) = .instr (.sneReg x y) ∧
    (∀ n, 0 < n → n < 16 → decode (regRegWord 5 x y n) = .failure .op5LowNibble ∧
      decode (regRegWord 9 x y n) = .failure .op9LowNibble) ∧
    ∀ s : State,
      (∃ t, exec (.seReg x y) s = .next t ∧
        t.pc = (if (s.reg x).toNat = (s.reg y).toNat then s.pc + 2 else s.pc) ∧ ChangesOnly [.pc] s t) ∧
      (∃ t, exec (.sneReg x y) s = .next t ∧
        t.pc = (if (s.reg x).toNat = (s.reg y).toNat then s.pc else s.pc + 2) ∧ ChangesOnly [.pc] s t)

/-- R144: a skip that holds leaves PC at the fetch address plus 4 whatever the skipped bytes are, legal word or not. -/
def Obligations.TakenSkipIgnoresTheSkippedWord : Prop :=
  ∀ (s : State) (w : Word), fetch s = .ok w →
    ((∃ x kk, decode w = .instr (.seImm x kk) ∧ s.reg x = kk) ∨
     (∃ x kk, decode w = .instr (.sneImm x kk) ∧ s.reg x ≠ kk) ∨
     (∃ x y, decode w = .instr (.seReg x y) ∧ s.reg x = s.reg y) ∨
     (∃ x y, decode w = .instr (.sneReg x y) ∧ s.reg x ≠ s.reg y)) →
    ∃ t, cycle s = .next t ∧ t.pc.toNat = s.pc.toNat + 4 ∧ ChangesOnly [.pc] s t

/-- R142: PC becomes nnn + V0, without wrapping at 0xFFF. -/
def Obligations.JumpWithV0Offset : Prop :=
  ∀ nnn : AddrField, decode (addrWord 0xB nnn) = .instr (.jpV0 nnn) ∧
    ∀ s : State, ∃ t, exec (.jpV0 nnn) s = .next t ∧ t.pc.toNat = nnn.toNat + (s.reg 0).toNat ∧
      ChangesOnly [.pc] s t

/-! ### Register loads and the ALU -/

/-- R152, R153, R154: the loads and the byte add, which write no flag; with x = F they write VF as a register. -/
def Obligations.LoadsAndByteAdd : Prop :=
  ∀ (x y : Reg) (kk : Byte),
    decode (regImmWord 6 x kk) = .instr (.ldImm x kk) ∧ decode (regImmWord 7 x kk) = .instr (.addImm x kk) ∧
    decode (regRegWord 8 x y 0) = .instr (.ldReg x y) ∧
    ∀ s : State,
      (∃ t, exec (.ldImm x kk) s = .next t ∧ t.reg x = kk ∧ ChangesOnly [.reg x] s t) ∧
      (∃ t, exec (.addImm x kk) s = .next t ∧
        (t.reg x).toNat = ((s.reg x).toNat + kk.toNat) % 256 ∧ ChangesOnly [.reg x] s t) ∧
      (∃ t, exec (.ldReg x y) s = .next t ∧ t.reg x = s.reg y ∧ ChangesOnly [.reg x] s t)

/-- R155, R156, R157: the bitwise operations, which leave VF alone unless x = F. -/
def Obligations.BitwiseOperations : Prop :=
  ∀ (x y : Reg),
    decode (regRegWord 8 x y 1) = .instr (.orReg x y) ∧ decode (regRegWord 8 x y 2) = .instr (.andReg x y) ∧
    decode (regRegWord 8 x y 3) = .instr (.xorReg x y) ∧
    ∀ s : State,
      (∃ t, exec (.orReg x y) s = .next t ∧
        (t.reg x).toNat = (s.reg x).toNat ||| (s.reg y).toNat ∧ ChangesOnly [.reg x] s t) ∧
      (∃ t, exec (.andReg x y) s = .next t ∧
        (t.reg x).toNat = (s.reg x).toNat &&& (s.reg y).toNat ∧ ChangesOnly [.reg x] s t) ∧
      (∃ t, exec (.xorReg x y) s = .next t ∧
        (t.reg x).toNat = (s.reg x).toNat ^^^ (s.reg y).toNat ∧ ChangesOnly [.reg x] s t)

/-- R158, R163: ADD Vx, Vy. The flag is the ninth bit of the sum whatever x is; with x = F the sum is lost (R151,
the spec's decision D8). -/
def Obligations.AddSetsTheCarry : Prop :=
  ∀ (x y : Reg), decode (regRegWord 8 x y 4) = .instr (.addReg x y) ∧
    ∀ s : State, ∃ t, exec (.addReg x y) s = .next t ∧
      (t.reg vf).toNat = (if 255 < (s.reg x).toNat + (s.reg y).toNat then 1 else 0) ∧
      (x ≠ vf → (t.reg x).toNat = ((s.reg x).toNat + (s.reg y).toNat) % 256) ∧
      ChangesOnly [.reg x, .reg vf] s t

/-- R159, R161, R163: SUB and SUBN. The flag is 1 exactly when there is no borrow, equal operands included, whatever x is;
with x = F the difference is lost (R151, decision D8). -/
def Obligations.SubtractSetsNoBorrow : Prop :=
  ∀ (x y : Reg), decode (regRegWord 8 x y 5) = .instr (.sub x y) ∧ decode (regRegWord 8 x y 7) = .instr (.subn x y) ∧
    ∀ s : State,
      (∃ t, exec (.sub x y) s = .next t ∧
        (t.reg vf).toNat = (if (s.reg y).toNat ≤ (s.reg x).toNat then 1 else 0) ∧
        (x ≠ vf → (t.reg x).toNat = (256 + (s.reg x).toNat - (s.reg y).toNat) % 256) ∧
        ChangesOnly [.reg x, .reg vf] s t) ∧
      (∃ t, exec (.subn x y) s = .next t ∧
        (t.reg vf).toNat = (if (s.reg x).toNat ≤ (s.reg y).toNat then 1 else 0) ∧
        (x ≠ vf → (t.reg x).toNat = (256 + (s.reg y).toNat - (s.reg x).toNat) % 256) ∧
        ChangesOnly [.reg x, .reg vf] s t)

/-- R160, R162, R40: the shifts by one of V[x], or of V[y] under LEGACY_SHIFT; the flag is the bit shifted out, whatever x
is (R151, decision D8). -/
def Obligations.ShiftsSetTheBitShiftedOut : Prop :=
  ∀ (x y : Reg), decode (regRegWord 8 x y 6) = .instr (.shr x y) ∧ decode (regRegWord 8 x y 14) = .instr (.shl x y) ∧
    ∀ (s : State) (v : Byte), v = (if s.config.legacyShift = true then s.reg y else s.reg x) →
      (∃ t, exec (.shr x y) s = .next t ∧ (t.reg vf).toNat = v.toNat % 2 ∧
        (x ≠ vf → (t.reg x).toNat = v.toNat / 2) ∧ ChangesOnly [.reg x, .reg vf] s t) ∧
      (∃ t, exec (.shl x y) s = .next t ∧ (t.reg vf).toNat = v.toNat / 128 ∧
        (x ≠ vf → (t.reg x).toNat = 2 * v.toNat % 256) ∧ ChangesOnly [.reg x, .reg vf] s t)

/-- R164: the source's shift example, 0b1011_1111. -/
def Obligations.ShiftExampleOfTheSource : Prop :=
  ∀ (s : State) (x : Reg), x ≠ vf → s.reg x = 0b10111111 →
    (∃ t, exec (.shl x x) s = .next t ∧ t.reg vf = 1 ∧ t.reg x = 0b01111110) ∧
    (∃ t, exec (.shr x x) s = .next t ∧ t.reg vf = 1 ∧ t.reg x = 0b01011111)

/-! ### Index and random -/

/-- R180: I becomes nnn; nothing else changes. -/
def Obligations.LoadIndex : Prop :=
  ∀ nnn : AddrField, decode (addrWord 0xA nnn) = .instr (.ldI nnn) ∧
    ∀ s : State, ∃ t, exec (.ldI nnn) s = .next t ∧ t.i.toNat = nnn.toNat ∧ ChangesOnly [.i] s t

/-- R182, R184: V[x] becomes the draw masked by kk, for the draw the state gives, whatever it is; a bit that is 0 in kk is 0 in
the result; every byte is a possible draw (the spec's decision D15). The draws' form in the state, its replay list and its
counter, is the model's own (log entry 2). -/
def Obligations.RandomByteIsMasked : Prop :=
  ∀ (x : Reg) (kk : Byte), decode (regImmWord 0xC x kk) = .instr (.rnd x kk) ∧
    (∀ s : State, ∃ t, exec (.rnd x kk) s = .next t ∧ t.reg x = s.drawnByte &&& kk ∧
      t.reg x &&& ~~~kk = 0 ∧ (kk = 0x00 → t.reg x = 0) ∧ (kk = 0xFF → t.reg x = s.drawnByte) ∧
      t.drawCount = s.drawCount + 1 ∧ ChangesOnly [.reg x, .replay, .drawCount] s t) ∧
    (∀ (s : State) (d : Byte), ∃ s', ChangesOnly [.replay] s s' ∧ s'.drawnByte = d)

/-! ### Draw -/

/-- R192, R193: composing is the exclusive or of the frame buffer with the sprite's pixels, and it collides exactly when a
sprite pixel was on. -/
def Obligations.ComposeIsXorWithTheSprite : Prop :=
  ∀ (sprite : List Byte) (cx cy : Nat) (fb : FrameBuffer), sprite.length ≤ 15 →
    (∀ r c, ((compose sprite cx cy fb).1.pixel r c = true ↔
      Xor (fb.pixel r c = true) (Covers sprite cx cy r c))) ∧
    ((compose sprite cx cy fb).2 = true ↔ ∃ r c, Covers sprite cx cy r c ∧ fb.pixel r c = true)

/-- R190, R194, R196, R230: a draw whose rows are all in memory inverts the sprite's pixels with wrap at (V[x] mod 64,
V[y] mod 32), both read before VF is written; VF is the collision; one snapshot of the new frame buffer is published;
nothing else changes. VF written last is the spec's decision D8, the one snapshot its decision D14 (log entry 15). -/
def Obligations.DrawXorsTheSpriteWithWrap : Prop :=
  ∀ (x y : Reg) (n : RowCount), decode (regRegWord 0xD x y n.val) = .instr (.drw x y n) ∧
    ∀ (s : State) (sprite : List Byte), (∀ r, r < n.val → s.i.toNat + r ≤ 0xFFF) →
      sprite = (List.range n.val).map (fun r => s.byteAt (s.i.toNat + r)) →
      ∃ t, exec (.drw x y n) s = .next t ∧
        (∀ r c, (t.fb.pixel r c = true ↔
          Xor (s.fb.pixel r c = true)
            (Covers sprite ((s.reg x).toNat % 64) ((s.reg y).toNat % 32) r c))) ∧
        ((∃ r c, Covers sprite ((s.reg x).toNat % 64) ((s.reg y).toNat % 32) r c ∧ s.fb.pixel r c = true) →
          t.reg vf = 1) ∧
        ((¬ ∃ r c, Covers sprite ((s.reg x).toNat % 64) ((s.reg y).toNat % 32) r c ∧ s.fb.pixel r c = true) →
          t.reg vf = 0) ∧
        t.trace = s.trace ++ [t.fb] ∧ ChangesOnly [.reg vf, .fb, .trace] s t

/-- R191 (the spec's decision D4): a sprite row above 0xFFF faults at the first such row; no pixel, no flag, no snapshot. -/
def Obligations.DrawPastMemoryFaults : Prop :=
  ∀ (x y : Reg) (n : RowCount) (s : State) (r : Nat), r < n.val → 0xFFF < s.i.toNat + r →
    (∀ r', r' < r → s.i.toNat + r' ≤ 0xFFF) →
    ∃ t, exec (.drw x y n) s = .next t ∧
      t.status = .faulted (.memoryOutOfRange (s.i.toNat + r) (s.pc - 2)) ∧ ChangesOnly [.status] s t

/-- R197: a sprite of width 8 at column 63 lights column 63 and wraps to columns 0..6 of the same row. -/
def Obligations.SpriteAtColumn63Wraps : Prop :=
  ∀ (cy : Nat) (fb : FrameBuffer) (r : Fin 32) (c : Fin 64),
    ((compose [0xFF] 63 cy fb).1.pixel r c = true ↔
      Xor (fb.pixel r c = true) (r.val = cy % 32 ∧ (c.val = 63 ∨ c.val ≤ 6)))

/-- R198, C4: drawing a sprite twice restores the frame buffer, and the second draw reports no collision exactly when every
sprite pixel was already on. -/
def Obligations.DrawingTwiceRestores : Prop :=
  ∀ (sprite : List Byte) (cx cy : Nat) (fb : FrameBuffer), sprite.length ≤ 15 →
    (compose sprite cx cy (compose sprite cx cy fb).1).1 = fb ∧
    ((compose sprite cx cy (compose sprite cx cy fb).1).2 = false ↔
      ∀ r c, Covers sprite cx cy r c → fb.pixel r c = true)

/-! ### Whole-machine rules -/

/-- R24, R27, R30 to R33, R37, R55: what each instruction may write, and that it writes nothing else. -/
def Obligations.InstructionsWriteOnlyTheirOwn : Prop :=
  ∀ (i : Instr) (s t : State), exec i s = .next t → ChangesOnly (mayWrite i) s t

/-- R217: a fault makes no partial change: only the run status differs. -/
def Obligations.InstructionFaultsArePrecise : Prop :=
  ∀ (i : Instr) (s t : State) (f : Fault), s.status = .running → exec i s = .next t →
    t.status = .faulted f → ChangesOnly [.status] s t

/-- R42, R55, R40: no step changes memory or the configuration. -/
def Obligations.StepKeepsMemoryAndConfiguration : Prop :=
  ∀ s t : State, step s = .next t → t.mem = s.mem ∧ t.config = s.config ∧ ∀ a, t.byteAt a = s.byteAt a

/-- R31: a step that changes a timer handled a timer event. -/
def Obligations.OnlyTimerEventsChangeTheTimers : Prop :=
  ∀ s t : State, step s = .next t → t.dt ≠ s.dt ∨ t.st ≠ s.st → s.status = .running ∧ s.nextEvent = .timer

/-- R29, R30, R42, R124, R213: every step keeps the invariant. -/
def Obligations.StepKeepsTheInvariant : Prop := ∀ s t : State, MachineInv s → step s = .next t → MachineInv t

/-- The invariant holds at reset. -/
def Obligations.InvariantAtReset : Prop := MachineInv State.reset

/-- R228, R242: the invariant holds in every launch state, whatever the configuration and the image. -/
def Obligations.InvariantAtLaunch : Prop :=
  ∀ (c : Config) (dt0 st0 : Byte) (image : List Byte) (t : State),
    loadImage image (State.create c dt0 st0) = .next t → MachineInv t ∧ t.pc = 0x200 ∧ t.status = .running

/-! ### Steps, runs and outcomes -/

/-- R105, R108: a step of a running machine takes its next event off the coming ones and handles it to completion; the
events' form in the state, and that an instruction event follows the last listed one, is the model's own (log entry 1). -/
def Obligations.StepHandlesTheNextEvent : Prop :=
  ∀ s : State, s.status = .running →
    step s = handleEvent s.nextEvent s.popEvent ∧
    (∀ e es, s.events = e :: es → s.nextEvent = e ∧ s.popEvent.events = es) ∧
    (s.events = [] → s.nextEvent = .instr ∧ s.popEvent.events = []) ∧
    ChangesOnly [.events] s s.popEvent

/-- R105, R108: however many steps are made, from any state, they are the run over the state's coming events: the two end in
states that differ in the events still to come alone, and a run that goes on has used up one event a step (the model's own
list, log entry 1). So what the statements about runs say, they say of steps. -/
def Obligations.StepsAreTheRunOverTheComingEvents : Prop :=
  ∀ (n : Nat) (s : State),
    ∃ t u, runSteps n s = .next t ∧ runEvents (comingEvents s n) s = .next u ∧ ChangesOnly [.events] u t ∧
      (t.status = .running → t.events = s.events.drop n)

/-- R210: the code of every outcome, as the spec's table has them (its own ordinals): 0 for Halt, 1 to 6 for the fatal
outcomes, none while the run goes on; 7 for the load of an oversized image, none for a load that is accepted. Where each
stands is the model's (log entry 3). -/
def Obligations.OutcomeCodes : Prop :=
  (∀ s : State, s.status = .running → Result.code (.next s) = none) ∧
  (∀ s : State, Result.code (exec .halt s) = some 0) ∧
  (∀ (s t : State) (f : Fault), step s = .next t → t.status = .faulted f →
    Result.code (step s) = some (match f with
      | .decodeFailure _ _ => 1
      | .stackUnderflow _ => 2
      | .misalignedFetch _ => 3
      | .fetchOutOfRange _ => 4
      | .memoryOutOfRange _ _ => 5
      | .stackOverflow _ => 6)) ∧
  (∀ s : State, s.status = .running → Result.code (step s) = none ∨ ∃ k, k ≤ 6 ∧ Result.code (step s) = some k) ∧
  (∀ (image : List Byte) (s : State), 3584 < image.length → Result.code (loadImage image s) = some 7) ∧
  (∀ (image : List Byte) (s : State), s.status = .running → image.length ≤ 3584 →
    Result.code (loadImage image s) = none)
end

