-- ==== Sys2Proof/Laws/Encoding.lean ====
section
/-! SUPPORT. What each format of the encoder puts in each field (30_encoding.md R71, R73). -/

namespace Sys2Proof

section Addr
variable (op : BitVec 4) (nnn : AddrField)

@[simp] theorem fieldOp_encodeAddr : fieldOp (encodeAddr op nnn) = op := by
  apply BitVec.eq_of_getLsbD_eq
  intro k hk
  simp only [fieldOp, encodeAddr, BitVec.getLsbD_extractLsb', BitVec.getLsbD_append]
  interval_cases k <;> simp

@[simp] theorem fieldNnn_encodeAddr : fieldNnn (encodeAddr op nnn) = nnn := by
  apply BitVec.eq_of_getLsbD_eq
  intro k hk
  simp only [fieldNnn, encodeAddr, BitVec.getLsbD_extractLsb', BitVec.getLsbD_append]
  simp [hk]

end Addr

section RegImm
variable (op : BitVec 4) (x : Reg) (kk : Byte)

@[simp] theorem fieldOp_encodeRegImm : fieldOp (encodeRegImm op x kk) = op := by
  apply BitVec.eq_of_getLsbD_eq
  intro k hk
  simp only [fieldOp, encodeRegImm, BitVec.getLsbD_extractLsb', BitVec.getLsbD_append]
  interval_cases k <;> simp

@[simp] theorem fieldX_encodeRegImm : fieldX (encodeRegImm op x kk) = x := by
  have : (encodeRegImm op x kk).extractLsb' 8 4 = BitVec.ofFin (w := 4) x := by
    apply BitVec.eq_of_getLsbD_eq
    intro k hk
    simp only [encodeRegImm, BitVec.getLsbD_extractLsb', BitVec.getLsbD_append]
    interval_cases k <;> simp
  rw [fieldX, this]

@[simp] theorem fieldKk_encodeRegImm : fieldKk (encodeRegImm op x kk) = kk := by
  apply BitVec.eq_of_getLsbD_eq
  intro k hk
  simp only [fieldKk, encodeRegImm, BitVec.getLsbD_extractLsb', BitVec.getLsbD_append]
  simp [hk]

end RegImm

section RegReg
variable (op : BitVec 4) (x y : Reg) (f : BitVec 4)

@[simp] theorem fieldOp_encodeRegReg : fieldOp (encodeRegReg op x y f) = op := by
  apply BitVec.eq_of_getLsbD_eq
  intro k hk
  simp only [fieldOp, encodeRegReg, BitVec.getLsbD_extractLsb', BitVec.getLsbD_append]
  interval_cases k <;> simp

@[simp] theorem fieldX_encodeRegReg : fieldX (encodeRegReg op x y f) = x := by
  have : (encodeRegReg op x y f).extractLsb' 8 4 = BitVec.ofFin (w := 4) x := by
    apply BitVec.eq_of_getLsbD_eq
    intro k hk
    simp only [encodeRegReg, BitVec.getLsbD_extractLsb', BitVec.getLsbD_append]
    interval_cases k <;> simp
  rw [fieldX, this]

@[simp] theorem fieldY_encodeRegReg : fieldY (encodeRegReg op x y f) = y := by
  have : (encodeRegReg op x y f).extractLsb' 4 4 = BitVec.ofFin (w := 4) y := by
    apply BitVec.eq_of_getLsbD_eq
    intro k hk
    simp only [encodeRegReg, BitVec.getLsbD_extractLsb', BitVec.getLsbD_append]
    interval_cases k <;> simp
  rw [fieldY, this]

@[simp] theorem fieldN_encodeRegReg : fieldN (encodeRegReg op x y f) = f := by
  apply BitVec.eq_of_getLsbD_eq
  intro k hk
  simp only [fieldN, encodeRegReg, BitVec.getLsbD_extractLsb', BitVec.getLsbD_append]
  simp [hk]

end RegReg

/-! ### The encoder and the fields as numbers -/

theorem toNat_encodeAddr (op : BitVec 4) (nnn : AddrField) :
    (encodeAddr op nnn).toNat = op.toNat * 0x1000 + nnn.toNat := by
  have := nnn.isLt
  rw [encodeAddr, BitVec.toNat_append, ← Nat.shiftLeft_add_eq_or_of_lt (by omega), Nat.shiftLeft_eq]

theorem toNat_encodeRegImm (op : BitVec 4) (x : Reg) (kk : Byte) :
    (encodeRegImm op x kk).toNat = op.toNat * 0x1000 + x.val * 0x100 + kk.toNat := by
  have h1 := kk.isLt
  have h2 := x.isLt
  have hx : (BitVec.ofFin (w := 4) x).toNat = x.val := rfl
  rw [encodeRegImm, BitVec.toNat_append, ← Nat.shiftLeft_add_eq_or_of_lt (by omega), Nat.shiftLeft_eq,
    BitVec.toNat_append, hx, ← Nat.shiftLeft_add_eq_or_of_lt (by omega), Nat.shiftLeft_eq]
  omega

theorem toNat_encodeRegReg (op : BitVec 4) (x y : Reg) (f : BitVec 4) :
    (encodeRegReg op x y f).toNat = op.toNat * 0x1000 + x.val * 0x100 + y.val * 0x10 + f.toNat := by
  have h1 := f.isLt
  have h2 := x.isLt
  have h3 := y.isLt
  have hx : (BitVec.ofFin (w := 4) x).toNat = x.val := rfl
  have hy : (BitVec.ofFin (w := 4) y).toNat = y.val := rfl
  rw [encodeRegReg, BitVec.toNat_append, ← Nat.shiftLeft_add_eq_or_of_lt (by omega), Nat.shiftLeft_eq,
    BitVec.toNat_append, hy, ← Nat.shiftLeft_add_eq_or_of_lt (by omega), Nat.shiftLeft_eq,
    BitVec.toNat_append, hx, ← Nat.shiftLeft_add_eq_or_of_lt (by omega), Nat.shiftLeft_eq]
  omega

theorem toNat_fieldOp (w : Word) : (fieldOp w).toNat = w.toNat / 0x1000 := by
  have := w.isLt
  simp only [fieldOp, BitVec.extractLsb'_toNat, Nat.shiftRight_eq_div_pow]
  omega

theorem val_fieldX (w : Word) : (fieldX w).val = w.toNat / 0x100 % 16 := by
  change (w.extractLsb' 8 4).toNat = _
  simp only [BitVec.extractLsb'_toNat, Nat.shiftRight_eq_div_pow]

theorem val_fieldY (w : Word) : (fieldY w).val = w.toNat / 0x10 % 16 := by
  change (w.extractLsb' 4 4).toNat = _
  simp only [BitVec.extractLsb'_toNat, Nat.shiftRight_eq_div_pow]

theorem toNat_fieldN (w : Word) : (fieldN w).toNat = w.toNat % 16 := by
  simp [fieldN, BitVec.extractLsb'_toNat]

theorem toNat_fieldNnn (w : Word) : (fieldNnn w).toNat = w.toNat % 0x1000 := by
  simp [fieldNnn, BitVec.extractLsb'_toNat]

theorem toNat_fieldKk (w : Word) : (fieldKk w).toNat = w.toNat % 0x100 := by
  simp [fieldKk, BitVec.extractLsb'_toNat]

/-- A word read back from its two bytes is the word (R51). -/
@[simp] theorem wordOfBytes_bytes (w : Word) : wordOfBytes (firstByte w) (secondByte w) = w := by
  apply BitVec.eq_of_getLsbD_eq
  intro k hk
  simp only [wordOfBytes, firstByte, secondByte, BitVec.getLsbD_append, BitVec.getLsbD_extractLsb']
  interval_cases k <;> simp

end Sys2Proof
end

