-- ==== Sys2Proof/Laws/State.lean ====
section
/-! SUPPORT. One lemma per field per named update of the state, true by rfl, so that no proof unfolds a record update. -/

namespace Sys2Proof.Machine.State

variable (s : State)

/-! ### setReg -/

@[simp] theorem setReg_config (r : Reg) (b : Byte) : (s.setReg r b).config = s.config := rfl
@[simp] theorem setReg_mem (r : Reg) (b : Byte) : (s.setReg r b).mem = s.mem := rfl
@[simp] theorem setReg_v (r : Reg) (b : Byte) : (s.setReg r b).v = s.v.set r.val b := rfl
@[simp] theorem setReg_i (r : Reg) (b : Byte) : (s.setReg r b).i = s.i := rfl
@[simp] theorem setReg_pc (r : Reg) (b : Byte) : (s.setReg r b).pc = s.pc := rfl
@[simp] theorem setReg_dt (r : Reg) (b : Byte) : (s.setReg r b).dt = s.dt := rfl
@[simp] theorem setReg_st (r : Reg) (b : Byte) : (s.setReg r b).st = s.st := rfl
@[simp] theorem setReg_stack (r : Reg) (b : Byte) : (s.setReg r b).stack = s.stack := rfl
@[simp] theorem setReg_fb (r : Reg) (b : Byte) : (s.setReg r b).fb = s.fb := rfl
@[simp] theorem setReg_status (r : Reg) (b : Byte) : (s.setReg r b).status = s.status := rfl
@[simp] theorem setReg_trace (r : Reg) (b : Byte) : (s.setReg r b).trace = s.trace := rfl
@[simp] theorem setReg_events (r : Reg) (b : Byte) : (s.setReg r b).events = s.events := rfl
@[simp] theorem setReg_replay (r : Reg) (b : Byte) : (s.setReg r b).replay = s.replay := rfl
@[simp] theorem setReg_drawCount (r : Reg) (b : Byte) : (s.setReg r b).drawCount = s.drawCount := rfl

/-! ### setPc -/

@[simp] theorem setPc_config (a : Word) : (s.setPc a).config = s.config := rfl
@[simp] theorem setPc_mem (a : Word) : (s.setPc a).mem = s.mem := rfl
@[simp] theorem setPc_v (a : Word) : (s.setPc a).v = s.v := rfl
@[simp] theorem setPc_i (a : Word) : (s.setPc a).i = s.i := rfl
@[simp] theorem setPc_pc (a : Word) : (s.setPc a).pc = a := rfl
@[simp] theorem setPc_dt (a : Word) : (s.setPc a).dt = s.dt := rfl
@[simp] theorem setPc_st (a : Word) : (s.setPc a).st = s.st := rfl
@[simp] theorem setPc_stack (a : Word) : (s.setPc a).stack = s.stack := rfl
@[simp] theorem setPc_fb (a : Word) : (s.setPc a).fb = s.fb := rfl
@[simp] theorem setPc_status (a : Word) : (s.setPc a).status = s.status := rfl
@[simp] theorem setPc_trace (a : Word) : (s.setPc a).trace = s.trace := rfl
@[simp] theorem setPc_events (a : Word) : (s.setPc a).events = s.events := rfl
@[simp] theorem setPc_replay (a : Word) : (s.setPc a).replay = s.replay := rfl
@[simp] theorem setPc_drawCount (a : Word) : (s.setPc a).drawCount = s.drawCount := rfl

/-! ### setI -/

@[simp] theorem setI_config (a : Word) : (s.setI a).config = s.config := rfl
@[simp] theorem setI_mem (a : Word) : (s.setI a).mem = s.mem := rfl
@[simp] theorem setI_v (a : Word) : (s.setI a).v = s.v := rfl
@[simp] theorem setI_i (a : Word) : (s.setI a).i = a := rfl
@[simp] theorem setI_pc (a : Word) : (s.setI a).pc = s.pc := rfl
@[simp] theorem setI_dt (a : Word) : (s.setI a).dt = s.dt := rfl
@[simp] theorem setI_st (a : Word) : (s.setI a).st = s.st := rfl
@[simp] theorem setI_stack (a : Word) : (s.setI a).stack = s.stack := rfl
@[simp] theorem setI_fb (a : Word) : (s.setI a).fb = s.fb := rfl
@[simp] theorem setI_status (a : Word) : (s.setI a).status = s.status := rfl
@[simp] theorem setI_trace (a : Word) : (s.setI a).trace = s.trace := rfl
@[simp] theorem setI_events (a : Word) : (s.setI a).events = s.events := rfl
@[simp] theorem setI_replay (a : Word) : (s.setI a).replay = s.replay := rfl
@[simp] theorem setI_drawCount (a : Word) : (s.setI a).drawCount = s.drawCount := rfl

/-! ### push -/

@[simp] theorem push_config (a : Word) : (s.push a).config = s.config := rfl
@[simp] theorem push_mem (a : Word) : (s.push a).mem = s.mem := rfl
@[simp] theorem push_v (a : Word) : (s.push a).v = s.v := rfl
@[simp] theorem push_i (a : Word) : (s.push a).i = s.i := rfl
@[simp] theorem push_pc (a : Word) : (s.push a).pc = s.pc := rfl
@[simp] theorem push_dt (a : Word) : (s.push a).dt = s.dt := rfl
@[simp] theorem push_st (a : Word) : (s.push a).st = s.st := rfl
@[simp] theorem push_stack (a : Word) : (s.push a).stack = s.stack ++ [a] := rfl
@[simp] theorem push_fb (a : Word) : (s.push a).fb = s.fb := rfl
@[simp] theorem push_status (a : Word) : (s.push a).status = s.status := rfl
@[simp] theorem push_trace (a : Word) : (s.push a).trace = s.trace := rfl
@[simp] theorem push_events (a : Word) : (s.push a).events = s.events := rfl
@[simp] theorem push_replay (a : Word) : (s.push a).replay = s.replay := rfl
@[simp] theorem push_drawCount (a : Word) : (s.push a).drawCount = s.drawCount := rfl

/-! ### setFb -/

@[simp] theorem setFb_config (fb : FrameBuffer) : (s.setFb fb).config = s.config := rfl
@[simp] theorem setFb_mem (fb : FrameBuffer) : (s.setFb fb).mem = s.mem := rfl
@[simp] theorem setFb_v (fb : FrameBuffer) : (s.setFb fb).v = s.v := rfl
@[simp] theorem setFb_i (fb : FrameBuffer) : (s.setFb fb).i = s.i := rfl
@[simp] theorem setFb_pc (fb : FrameBuffer) : (s.setFb fb).pc = s.pc := rfl
@[simp] theorem setFb_dt (fb : FrameBuffer) : (s.setFb fb).dt = s.dt := rfl
@[simp] theorem setFb_st (fb : FrameBuffer) : (s.setFb fb).st = s.st := rfl
@[simp] theorem setFb_stack (fb : FrameBuffer) : (s.setFb fb).stack = s.stack := rfl
@[simp] theorem setFb_fb (fb : FrameBuffer) : (s.setFb fb).fb = fb := rfl
@[simp] theorem setFb_status (fb : FrameBuffer) : (s.setFb fb).status = s.status := rfl
@[simp] theorem setFb_trace (fb : FrameBuffer) : (s.setFb fb).trace = s.trace := rfl
@[simp] theorem setFb_events (fb : FrameBuffer) : (s.setFb fb).events = s.events := rfl
@[simp] theorem setFb_replay (fb : FrameBuffer) : (s.setFb fb).replay = s.replay := rfl
@[simp] theorem setFb_drawCount (fb : FrameBuffer) : (s.setFb fb).drawCount = s.drawCount := rfl

/-! ### publish -/

@[simp] theorem publish_config : (s.publish).config = s.config := rfl
@[simp] theorem publish_mem : (s.publish).mem = s.mem := rfl
@[simp] theorem publish_v : (s.publish).v = s.v := rfl
@[simp] theorem publish_i : (s.publish).i = s.i := rfl
@[simp] theorem publish_pc : (s.publish).pc = s.pc := rfl
@[simp] theorem publish_dt : (s.publish).dt = s.dt := rfl
@[simp] theorem publish_st : (s.publish).st = s.st := rfl
@[simp] theorem publish_stack : (s.publish).stack = s.stack := rfl
@[simp] theorem publish_fb : (s.publish).fb = s.fb := rfl
@[simp] theorem publish_status : (s.publish).status = s.status := rfl
@[simp] theorem publish_trace : (s.publish).trace = s.trace ++ [s.fb] := rfl
@[simp] theorem publish_events : (s.publish).events = s.events := rfl
@[simp] theorem publish_replay : (s.publish).replay = s.replay := rfl
@[simp] theorem publish_drawCount : (s.publish).drawCount = s.drawCount := rfl

/-! ### afterDraw -/

@[simp] theorem afterDraw_config : (s.afterDraw).config = s.config := rfl
@[simp] theorem afterDraw_mem : (s.afterDraw).mem = s.mem := rfl
@[simp] theorem afterDraw_v : (s.afterDraw).v = s.v := rfl
@[simp] theorem afterDraw_i : (s.afterDraw).i = s.i := rfl
@[simp] theorem afterDraw_pc : (s.afterDraw).pc = s.pc := rfl
@[simp] theorem afterDraw_dt : (s.afterDraw).dt = s.dt := rfl
@[simp] theorem afterDraw_st : (s.afterDraw).st = s.st := rfl
@[simp] theorem afterDraw_stack : (s.afterDraw).stack = s.stack := rfl
@[simp] theorem afterDraw_fb : (s.afterDraw).fb = s.fb := rfl
@[simp] theorem afterDraw_status : (s.afterDraw).status = s.status := rfl
@[simp] theorem afterDraw_trace : (s.afterDraw).trace = s.trace := rfl
@[simp] theorem afterDraw_events : (s.afterDraw).events = s.events := rfl
@[simp] theorem afterDraw_replay : (s.afterDraw).replay = s.replay.tail := rfl
@[simp] theorem afterDraw_drawCount : (s.afterDraw).drawCount = s.drawCount + 1 := rfl

/-! ### halt -/

@[simp] theorem halt_config : (s.halt).config = s.config := rfl
@[simp] theorem halt_mem : (s.halt).mem = s.mem := rfl
@[simp] theorem halt_v : (s.halt).v = s.v := rfl
@[simp] theorem halt_i : (s.halt).i = s.i := rfl
@[simp] theorem halt_pc : (s.halt).pc = s.pc := rfl
@[simp] theorem halt_dt : (s.halt).dt = s.dt := rfl
@[simp] theorem halt_st : (s.halt).st = s.st := rfl
@[simp] theorem halt_stack : (s.halt).stack = s.stack := rfl
@[simp] theorem halt_fb : (s.halt).fb = s.fb := rfl
@[simp] theorem halt_status : (s.halt).status = .halted := rfl
@[simp] theorem halt_trace : (s.halt).trace = s.trace := rfl
@[simp] theorem halt_events : (s.halt).events = s.events := rfl
@[simp] theorem halt_replay : (s.halt).replay = s.replay := rfl
@[simp] theorem halt_drawCount : (s.halt).drawCount = s.drawCount := rfl

/-! ### raise -/

@[simp] theorem raise_config (e : Fault) : (s.raise e).config = s.config := rfl
@[simp] theorem raise_mem (e : Fault) : (s.raise e).mem = s.mem := rfl
@[simp] theorem raise_v (e : Fault) : (s.raise e).v = s.v := rfl
@[simp] theorem raise_i (e : Fault) : (s.raise e).i = s.i := rfl
@[simp] theorem raise_pc (e : Fault) : (s.raise e).pc = s.pc := rfl
@[simp] theorem raise_dt (e : Fault) : (s.raise e).dt = s.dt := rfl
@[simp] theorem raise_st (e : Fault) : (s.raise e).st = s.st := rfl
@[simp] theorem raise_stack (e : Fault) : (s.raise e).stack = s.stack := rfl
@[simp] theorem raise_fb (e : Fault) : (s.raise e).fb = s.fb := rfl
@[simp] theorem raise_status (e : Fault) : (s.raise e).status = .faulted e := rfl
@[simp] theorem raise_trace (e : Fault) : (s.raise e).trace = s.trace := rfl
@[simp] theorem raise_events (e : Fault) : (s.raise e).events = s.events := rfl
@[simp] theorem raise_replay (e : Fault) : (s.raise e).replay = s.replay := rfl
@[simp] theorem raise_drawCount (e : Fault) : (s.raise e).drawCount = s.drawCount := rfl

/-! ### popEvent -/

@[simp] theorem popEvent_config : (s.popEvent).config = s.config := rfl
@[simp] theorem popEvent_mem : (s.popEvent).mem = s.mem := rfl
@[simp] theorem popEvent_v : (s.popEvent).v = s.v := rfl
@[simp] theorem popEvent_i : (s.popEvent).i = s.i := rfl
@[simp] theorem popEvent_pc : (s.popEvent).pc = s.pc := rfl
@[simp] theorem popEvent_dt : (s.popEvent).dt = s.dt := rfl
@[simp] theorem popEvent_st : (s.popEvent).st = s.st := rfl
@[simp] theorem popEvent_stack : (s.popEvent).stack = s.stack := rfl
@[simp] theorem popEvent_fb : (s.popEvent).fb = s.fb := rfl
@[simp] theorem popEvent_status : (s.popEvent).status = s.status := rfl
@[simp] theorem popEvent_trace : (s.popEvent).trace = s.trace := rfl
@[simp] theorem popEvent_events : (s.popEvent).events = s.events.tail := rfl
@[simp] theorem popEvent_replay : (s.popEvent).replay = s.replay := rfl
@[simp] theorem popEvent_drawCount : (s.popEvent).drawCount = s.drawCount := rfl

/-! ### putByte -/

@[simp] theorem putByte_config (a : Nat) (x : Byte) : (s.putByte a x).config = s.config := rfl
@[simp] theorem putByte_mem (a : Nat) (x : Byte) : (s.putByte a x).mem = Memory.write s.config a x s.mem := rfl
@[simp] theorem putByte_v (a : Nat) (x : Byte) : (s.putByte a x).v = s.v := rfl
@[simp] theorem putByte_i (a : Nat) (x : Byte) : (s.putByte a x).i = s.i := rfl
@[simp] theorem putByte_pc (a : Nat) (x : Byte) : (s.putByte a x).pc = s.pc := rfl
@[simp] theorem putByte_dt (a : Nat) (x : Byte) : (s.putByte a x).dt = s.dt := rfl
@[simp] theorem putByte_st (a : Nat) (x : Byte) : (s.putByte a x).st = s.st := rfl
@[simp] theorem putByte_stack (a : Nat) (x : Byte) : (s.putByte a x).stack = s.stack := rfl
@[simp] theorem putByte_fb (a : Nat) (x : Byte) : (s.putByte a x).fb = s.fb := rfl
@[simp] theorem putByte_status (a : Nat) (x : Byte) : (s.putByte a x).status = s.status := rfl
@[simp] theorem putByte_trace (a : Nat) (x : Byte) : (s.putByte a x).trace = s.trace := rfl
@[simp] theorem putByte_events (a : Nat) (x : Byte) : (s.putByte a x).events = s.events := rfl
@[simp] theorem putByte_replay (a : Nat) (x : Byte) : (s.putByte a x).replay = s.replay := rfl
@[simp] theorem putByte_drawCount (a : Nat) (x : Byte) : (s.putByte a x).drawCount = s.drawCount := rfl

end Sys2Proof.Machine.State
end

