-- ==== Sys2Proof/Laws/Ops.lean ====
section
/-! SUPPORT. What each shared operation does, said once. -/

namespace Sys2Proof.Machine

/-! ### Memory -/

theorem Memory.read_eq_unlisted (c : Config) (m : List Host.Cell) (a : Nat) (h : ∀ p ∈ m, p.1 ≠ a) :
    Memory.read c m a = unlistedByte c a := by
  induction m with
  | nil => rfl
  | cons p rest ih =>
    have hp := h p (by simp)
    simp only [Memory.read]
    rw [if_neg (fun e => hp e.symm)]
    exact ih (fun q hq => h q (by simp [hq]))

@[simp] theorem Memory.read_write_same (c : Config) (a : Nat) (x : Byte) (m : List Host.Cell)
    (h : m.Pairwise (fun p q => p.1 < q.1)) : Memory.read c (Memory.write c a x m) a = x := by
  induction m with
  | nil => simp only [Memory.write]; split <;> simp_all [Memory.read]
  | cons p rest ih =>
    obtain ⟨b, y⟩ := p
    rw [List.pairwise_cons] at h
    have hgt : ∀ q ∈ rest, b < q.1 := fun q hq => h.1 q hq
    simp only [Memory.write]
    split
    · rename_i hab
      split
      · rename_i hx
        rw [Memory.read_eq_unlisted, hx]
        intro q hq
        rcases List.mem_cons.1 hq with rfl | hq
        · simp only; omega
        · have := hgt q hq; omega
      · simp [Memory.read]
    · split
      · rename_i hab
        split
        · rename_i hx
          rw [Memory.read_eq_unlisted, hx]
          intro q hq
          have := hgt q hq; omega
        · simp [Memory.read]
      · rename_i hne
        simp only [Memory.read, if_neg hne]
        exact ih h.2

@[simp] theorem Memory.read_write_other (c : Config) (a a' : Nat) (x : Byte) (m : List Host.Cell) (h : a' ≠ a) :
    Memory.read c (Memory.write c a x m) a' = Memory.read c m a' := by
  induction m with
  | nil => simp only [Memory.write]; split <;> simp [Memory.read, h]
  | cons p rest ih =>
    obtain ⟨b, y⟩ := p
    simp only [Memory.write]
    split
    · split <;> simp [Memory.read, h]
    · split
      · rename_i hab
        subst hab
        split <;> simp [Memory.read, h]
      · simp only [Memory.read, ih]

/-- A cell of the written memory is the new one or an old one. -/
theorem Memory.mem_write (c : Config) (a : Nat) (x : Byte) (m : List Host.Cell) (p : Host.Cell)
    (h : p ∈ Memory.write c a x m) : (p = (a, x) ∧ x ≠ unlistedByte c a) ∨ p ∈ m := by
  induction m with
  | nil => simp only [Memory.write] at h; split at h <;> simp_all
  | cons q rest ih =>
    obtain ⟨b, y⟩ := q
    simp only [Memory.write] at h
    split at h
    · split at h
      · exact .inr h
      · rcases List.mem_cons.1 h with rfl | h
        · exact .inl ⟨rfl, ‹_›⟩
        · exact .inr h
    · split at h
      · split at h
        · exact .inr (List.mem_cons_of_mem _ h)
        · rcases List.mem_cons.1 h with rfl | h
          · exact .inl ⟨rfl, ‹_›⟩
          · exact .inr (List.mem_cons_of_mem _ h)
      · rcases List.mem_cons.1 h with rfl | h
        · exact .inr (by simp)
        · exact (ih h).imp id (List.mem_cons_of_mem _)

/-- Writing keeps the canonical form. -/
theorem Memory.wf_write (c : Config) (a : Nat) (x : Byte) (m : List Host.Cell) (ha : a < memSize)
    (h : Memory.wf c m) : Memory.wf c (Memory.write c a x m) := by
  refine ⟨?_, fun p hp => ?_⟩
  · have hs := h.1
    clear h ha
    induction m with
    | nil => simp only [Memory.write]; split <;> simp
    | cons q rest ih =>
      obtain ⟨b, y⟩ := q
      rw [List.pairwise_cons] at hs
      simp only [Memory.write]
      split
      · rename_i hab
        split
        · exact List.pairwise_cons.2 hs
        · refine List.pairwise_cons.2 ⟨fun q hq => ?_, List.pairwise_cons.2 hs⟩
          rcases List.mem_cons.1 hq with rfl | hq
          · exact hab
          · exact lt_trans hab (hs.1 q hq)
      · split
        · rename_i hab
          subst hab
          split
          · exact hs.2
          · exact List.pairwise_cons.2 ⟨hs.1, hs.2⟩
        · rename_i hlt hne
          refine List.pairwise_cons.2 ⟨fun q hq => ?_, ih hs.2⟩
          rcases Memory.mem_write c a x rest q hq with ⟨rfl, -⟩ | hq
          · simp only; omega
          · exact hs.1 q hq
  · rcases Memory.mem_write c a x m p hp with ⟨rfl, hx⟩ | hp
    · exact ⟨ha, hx⟩
    · exact h.2 p hp

theorem reset_memory_wf : Memory.wf State.reset.config State.reset.mem := by
  simp [Memory.wf, State.reset, State.create]

@[simp] theorem putBytes_config (s : State) (a : Nat) (xs : List Byte) : (s.putBytes a xs).config = s.config := by
  induction xs generalizing s a with
  | nil => rfl
  | cons x xs ih => exact ih _ _

/-- Loading bytes inside the address space keeps the canonical form. -/
theorem Memory.wf_putBytes (s : State) (a : Nat) (xs : List Byte) (ha : a + xs.length ≤ memSize)
    (h : Memory.wf s.config s.mem) : Memory.wf (s.putBytes a xs).config (s.putBytes a xs).mem := by
  induction xs generalizing s a with
  | nil => exact h
  | cons x xs ih =>
    simp only [List.length_cons] at ha
    exact ih (s.putByte a x) (a + 1) (by omega) (Memory.wf_write _ _ _ _ (by omega) h)

/-- Two bytes written at consecutive addresses read back. -/
theorem byteAt_putBytes_pair (s : State) (a : Nat) (x y : Byte) (h : Memory.wf s.config s.mem) (ha : a < memSize) :
    (s.putBytes a [x, y]).byteAt a = x ∧ (s.putBytes a [x, y]).byteAt (a + 1) = y :=
  ⟨(Memory.read_write_other _ _ _ _ _ (by omega)).trans (Memory.read_write_same _ _ _ _ h.1),
    Memory.read_write_same _ _ _ _ (Memory.wf_write _ _ _ _ ha h).1⟩

/-! ### Reading a byte after each update -/

@[simp] theorem byteAt_setReg (s : State) (r : Reg) (b : Byte) (a : Nat) : (s.setReg r b).byteAt a = s.byteAt a := rfl
@[simp] theorem byteAt_setPc (s : State) (p : Word) (a : Nat) : (s.setPc p).byteAt a = s.byteAt a := rfl
@[simp] theorem byteAt_setI (s : State) (p : Word) (a : Nat) : (s.setI p).byteAt a = s.byteAt a := rfl
@[simp] theorem byteAt_push (s : State) (p : Word) (a : Nat) : (s.push p).byteAt a = s.byteAt a := rfl
@[simp] theorem byteAt_setFb (s : State) (fb : FrameBuffer) (a : Nat) : (s.setFb fb).byteAt a = s.byteAt a := rfl
@[simp] theorem byteAt_publish (s : State) (a : Nat) : s.publish.byteAt a = s.byteAt a := rfl
@[simp] theorem byteAt_afterDraw (s : State) (a : Nat) : s.afterDraw.byteAt a = s.byteAt a := rfl
@[simp] theorem byteAt_halt (s : State) (a : Nat) : s.halt.byteAt a = s.byteAt a := rfl
@[simp] theorem byteAt_raise (s : State) (e : Fault) (a : Nat) : (s.raise e).byteAt a = s.byteAt a := rfl
@[simp] theorem byteAt_popEvent (s : State) (a : Nat) : s.popEvent.byteAt a = s.byteAt a := rfl

/-! ### Registers -/

@[simp] theorem reg_setReg_same (s : State) (r : Reg) (b : Byte) : (s.setReg r b).reg r = b := by
  simp [State.reg, State.setReg]

theorem reg_setReg_ne (s : State) (r r' : Reg) (b : Byte) (h : r' ≠ r) : (s.setReg r b).reg r' = s.reg r' := by
  have : r.val ≠ r'.val := fun e => h (Fin.ext e.symm)
  simp [State.reg, State.setReg, Vector.getElem_set_ne, this]

theorem reg_setReg (s : State) (r r' : Reg) (b : Byte) :
    (s.setReg r b).reg r' = if r' = r then b else s.reg r' := by
  split
  · rename_i h; subst h; exact reg_setReg_same s r' b
  · exact reg_setReg_ne s r r' b ‹_›

@[simp] theorem reg_setPc (s : State) (a : Word) (r : Reg) : (s.setPc a).reg r = s.reg r := rfl
@[simp] theorem reg_setI (s : State) (a : Word) (r : Reg) : (s.setI a).reg r = s.reg r := rfl
@[simp] theorem reg_push (s : State) (a : Word) (r : Reg) : (s.push a).reg r = s.reg r := rfl
@[simp] theorem reg_setFb (s : State) (fb : FrameBuffer) (r : Reg) : (s.setFb fb).reg r = s.reg r := rfl
@[simp] theorem reg_publish (s : State) (r : Reg) : s.publish.reg r = s.reg r := rfl
@[simp] theorem reg_afterDraw (s : State) (r : Reg) : s.afterDraw.reg r = s.reg r := rfl
@[simp] theorem reg_halt (s : State) (r : Reg) : s.halt.reg r = s.reg r := rfl
@[simp] theorem reg_raise (s : State) (e : Fault) (r : Reg) : (s.raise e).reg r = s.reg r := rfl
@[simp] theorem reg_popEvent (s : State) (r : Reg) : s.popEvent.reg r = s.reg r := rfl

/-- A flag-writing instruction: VF is the flag whatever x is; V[x] is the result unless x = F; nothing else changes. -/
theorem reg_setRegThenFlag (s : State) (x r : Reg) (result flag : Byte) :
    (s.setRegThenFlag x result flag).reg r = if r = vf then flag else if r = x then result else s.reg r := by
  simp only [State.setRegThenFlag, reg_setReg]

/-! ### The stack -/

theorem pop_nil (s : State) (h : s.stack = []) : s.pop = none := by simp [State.pop, h]

theorem pop_concat (s : State) (rest : List Word) (a : Word) (h : s.stack = rest ++ [a]) :
    s.pop = some (a, { s with stack := rest }) := by simp [State.pop, h]

/-- Popping answers nothing on an empty stack; otherwise the last entry and the state without it. -/
theorem pop_cases (s : State) :
    (s.stack = [] ∧ s.pop = none) ∨
      ∃ rest a, s.stack = rest ++ [a] ∧ s.pop = some (a, { s with stack := rest }) := by
  rcases List.eq_nil_or_concat s.stack with h | ⟨rest, a, h⟩
  · exact .inl ⟨h, pop_nil s h⟩
  · exact .inr ⟨rest, a, by simpa using h, pop_concat s rest a (by simpa using h)⟩

/-! ### Fetch, the cycle, events -/

/-- A two-byte read gives the big-endian word exactly when both bytes are in memory. -/
theorem memReadWord_cases (s : State) (a : Nat) :
    (a + 1 < memSize ∧ s.memReadWord a = some (wordOfBytes (s.byteAt a) (s.byteAt (a + 1)))) ∨
      (memSize ≤ a + 1 ∧ s.memReadWord a = none) := by
  by_cases h : a + 1 < memSize
  · have h' : a < memSize := Nat.lt_of_succ_lt h
    exact .inl ⟨h, by simp only [State.memReadWord, State.memRead, if_pos h, if_pos h']⟩
  · refine .inr ⟨Nat.le_of_not_lt h, ?_⟩
    by_cases h' : a < memSize <;> simp only [State.memReadWord, State.memRead, if_neg h, h', if_true, if_false]

/-- A fetch is misaligned, out of range, or gives the big-endian word. -/
theorem fetch_cases (s : State) :
    (s.pc.toNat % 2 ≠ 0 ∧ fetch s = .error (.misalignedFetch s.pc)) ∨
    (s.pc.toNat % 2 = 0 ∧ 0xFFE < s.pc.toNat ∧ fetch s = .error (.fetchOutOfRange s.pc)) ∨
    (s.pc.toNat % 2 = 0 ∧ s.pc.toNat ≤ 0xFFE ∧
      fetch s = .ok (wordOfBytes (s.byteAt s.pc.toNat) (s.byteAt (s.pc.toNat + 1)))) := by
  have hm : memSize = 4096 := rfl
  by_cases h : s.pc.toNat % 2 = 0
  · rcases memReadWord_cases s s.pc.toNat with ⟨h', e⟩ | ⟨h', e⟩
    · exact .inr (.inr ⟨h, by omega, by simp [fetch, h, e]⟩)
    · exact .inr (.inl ⟨h, by omega, by simp [fetch, h, e]⟩)
  · exact .inl ⟨h, by simp [fetch, h]⟩

theorem cycle_of_fetch_error (s : State) (e : Fault) (h : fetch s = .error e) : cycle s = .next (s.raise e) := by
  simp [cycle, h]

theorem cycle_of_decode_failure (s : State) (w : Word) (why : IllegalWord) (h : fetch s = .ok w)
    (hd : decode w = .failure why) :
    cycle s = .next ((s.setPc (s.pc + 2)).raise (.decodeFailure w s.pc)) := by
  simp [cycle, h, hd]

theorem cycle_of_instr (s : State) (w : Word) (i : Instr) (h : fetch s = .ok w) (hd : decode w = .instr i) :
    cycle s = exec i (s.setPc (s.pc + 2)) := by
  simp [cycle, h, hd]

/-- A skip moves PC or nothing. -/
theorem skipIf_cases (s : State) (c : Bool) :
    (c = true ∧ s.skipIf c = s.setPc (s.pc + 2)) ∨ (c = false ∧ s.skipIf c = s) := by
  cases c
  · exact .inr ⟨rfl, rfl⟩
  · exact .inl ⟨rfl, rfl⟩

/-- The loader copies the image or refuses it. -/
theorem loadImage_cases (image : List Byte) (s : State) :
    (image.length ≤ maxImage ∧ loadImage image s = .next (s.putBytes loadAddress image)) ∨
      (maxImage < image.length ∧ loadImage image s = .refused (.imageTooLarge image.length)) := by
  by_cases h : image.length ≤ maxImage
  · exact .inl ⟨h, by simp [loadImage, imageWellFormed, h]⟩
  · exact .inr ⟨by omega, by simp [loadImage, imageWellFormed, h]⟩

theorem ended_eq_false (s : State) : s.ended = false ↔ s.status = .running := by
  cases h : s.status <;> simp [State.ended, h]

/-- A run over a sequence continues from where its first event leaves it. -/
theorem runEvents_cons_next (e : Event) (es : List Event) (s t : State) (h : handleEvent e s = .next t) :
    runEvents (e :: es) s = runEvents es t := by simp [runEvents, h]

/-- A run over two sequences is a run over the second from the end of the first. -/
theorem runEvents_append (es es' : List Event) (s t : State) (h : runEvents es s = .next t) :
    runEvents (es ++ es') s = runEvents es' t := by
  induction es generalizing s with
  | nil => simp only [runEvents, Host.Outcome.next.injEq] at h; subst h; rfl
  | cons e es ih =>
    simp only [runEvents, List.cons_append] at h ⊢
    cases he : handleEvent e s with
    | next u => rw [he] at h; exact ih u h
    | fault r => rw [he] at h; cases h
    | refused r => rw [he] at h; cases h

/-! ### The events to come: read by the Scheduler alone (R105) -/

/-- The state with other events to come. -/
def State.withEvents (s : State) (es : List Event) : State := { s with events := es }

theorem skipIf_withEvents (s : State) (es : List Event) (c : Bool) :
    (s.withEvents es).skipIf c = (s.skipIf c).withEvents es := by cases c <;> rfl

/-- No instruction reads or writes the events to come. -/
theorem exec_withEvents (i : Instr) (s t : State) (es : List Event) (h : exec i s = .next t) :
    exec i (s.withEvents es) = .next (t.withEvents es) := by
  cases i with
  | ret =>
    simp only [exec, execRet] at h ⊢
    rcases pop_cases s with ⟨h0, e⟩ | ⟨rest, a, h0, e⟩
    · rw [e] at h; rw [pop_nil (s.withEvents es) h0]; cases h; rfl
    · rw [e] at h; rw [pop_concat (s.withEvents es) rest a h0]; cases h; rfl
  | call nnn =>
    have hf : (s.withEvents es).stackFull = s.stackFull := rfl
    simp only [exec, execCall, hf] at h ⊢
    split at h <;> rename_i hs <;> cases h
    · rw [if_pos hs]; rfl
    · rw [if_neg hs]; rfl
  | drw x y n =>
    have ho : (s.withEvents es).spriteOutOfRange n = s.spriteOutOfRange n := rfl
    simp only [exec, execDrw, ho] at h ⊢
    split at h <;> cases h <;> rfl
  | seImm | sneImm | seReg | sneReg => cases h; exact congrArg _ (skipIf_withEvents s es _)
  | _ => cases h; rfl

theorem cycle_withEvents (s t : State) (es : List Event) (h : cycle s = .next t) :
    cycle (s.withEvents es) = .next (t.withEvents es) := by
  have hf : fetch (s.withEvents es) = fetch s := rfl
  rcases fetch_cases s with ⟨_, e⟩ | ⟨_, _, e⟩ | ⟨_, _, e⟩
  · rw [cycle_of_fetch_error _ _ e] at h; rw [cycle_of_fetch_error _ _ (hf.trans e)]; cases h; rfl
  · rw [cycle_of_fetch_error _ _ e] at h; rw [cycle_of_fetch_error _ _ (hf.trans e)]; cases h; rfl
  · cases hd : decode (wordOfBytes (s.byteAt s.pc.toNat) (s.byteAt (s.pc.toNat + 1))) with
    | failure why => rw [cycle_of_decode_failure _ _ _ e hd] at h; rw [cycle_of_decode_failure _ _ _ (hf.trans e) hd]; cases h; rfl
    | instr i =>
      rw [cycle_of_instr _ _ _ e hd] at h; rw [cycle_of_instr _ _ _ (hf.trans e) hd]
      exact exec_withEvents i _ t es h

theorem handleEvent_withEvents (e : Event) (s t : State) (es : List Event) (h : handleEvent e s = .next t) :
    handleEvent e (s.withEvents es) = .next (t.withEvents es) := by
  have he : (s.withEvents es).ended = s.ended := rfl
  have hd : (s.withEvents es).dt = s.dt := rfl
  simp only [handleEvent, he, instructionEvent, hd] at h ⊢
  split at h
  · rename_i hs; rw [if_pos hs]; cases h; rfl
  · rename_i hs
    rw [if_neg hs]
    cases e with
    | timer => cases h; rfl
    | instr =>
      simp only at h ⊢
      split at h
      · rename_i hz; rw [if_pos hz]; exact cycle_withEvents s t es h
      · rename_i hz; rw [if_neg hz]; cases h; rfl

/-- Several steps continue from where the first one leaves the state. -/
theorem runSteps_succ_next (n : Nat) (s t : State) (h : step s = .next t) : runSteps (n + 1) s = runSteps n t := by
  simp [runSteps, h]

theorem comingEvents_zero (s : State) : comingEvents s 0 = [] := rfl

/-- The coming events are the next one and those that come once it is taken off. -/
theorem comingEvents_succ (s : State) (n : Nat) :
    comingEvents s (n + 1) = s.nextEvent :: comingEvents s.popEvent n := by
  simp only [comingEvents, List.range_succ_eq_map, List.map_cons, List.map_map, State.nextEvent, State.popEvent]
  cases s.events <;> simp [Function.comp_def]

end Sys2Proof.Machine
end

