-- ==== Sys2Proof/Laws/PerInstr.lean ====
section
/-! SUPPORT. Per-instruction statements about the syntax: the word of an instruction spells its own row of the opcode map
(30_encoding.md R77). -/

namespace Sys2Proof.Laws.EncodesItsRow

/-- The row of R77 with the instruction's number holds for the instruction's word. -/
def Statement (i : Instr) : Prop :=
  ∃ row ∈ opcodeTable, row.number = i.rowNumber ∧ row.spells (encode i) = true

/-- The words of a format agree with its mask on the fixed bits. -/
theorem addr_spells (op : BitVec 4) (nnn : AddrField) : encodeAddr op nnn &&& 0xF000 = op ++ (0 : BitVec 12) := by
  apply BitVec.eq_of_getLsbD_eq
  intro k hk
  simp only [encodeAddr, BitVec.getLsbD_and, BitVec.getLsbD_append]
  interval_cases k <;> simp

theorem regImm_spells (op : BitVec 4) (x : Reg) (kk : Byte) :
    encodeRegImm op x kk &&& 0xF000 = op ++ (0 : BitVec 12) := by
  apply BitVec.eq_of_getLsbD_eq
  intro k hk
  simp only [encodeRegImm, BitVec.getLsbD_and, BitVec.getLsbD_append]
  interval_cases k <;> simp

theorem regReg_spells (op : BitVec 4) (x y : Reg) (f : BitVec 4) :
    encodeRegReg op x y f &&& 0xF00F = op ++ (0 : BitVec 8) ++ f := by
  apply BitVec.eq_of_getLsbD_eq
  intro k hk
  simp only [encodeRegReg, BitVec.getLsbD_and, BitVec.getLsbD_append]
  interval_cases k <;> simp

theorem regRegN_spells (op : BitVec 4) (x y : Reg) (f : BitVec 4) :
    encodeRegReg op x y f &&& 0xF000 = op ++ (0 : BitVec 12) := by
  apply BitVec.eq_of_getLsbD_eq
  intro k hk
  simp only [encodeRegReg, BitVec.getLsbD_and, BitVec.getLsbD_append]
  interval_cases k <;> simp

theorem halt : Statement .halt :=
  ⟨⟨1, 0xFFFF, 0x0000⟩, by decide, rfl, by decide⟩

theorem cls : Statement .cls :=
  ⟨⟨2, 0xFFFF, 0x00E0⟩, by decide, rfl, by decide⟩

theorem ret : Statement .ret :=
  ⟨⟨3, 0xFFFF, 0x00EE⟩, by decide, rfl, by decide⟩

theorem jp (nnn : AddrField) : Statement (.jp nnn) :=
  ⟨⟨4, 0xF000, 0x1000⟩, by decide, rfl, by simp only [OpcodeRow.spells, encode, addr_spells]; decide⟩

theorem call (nnn : AddrField) : Statement (.call nnn) :=
  ⟨⟨5, 0xF000, 0x2000⟩, by decide, rfl, by simp only [OpcodeRow.spells, encode, addr_spells]; decide⟩

theorem seImm (x : Reg) (kk : Byte) : Statement (.seImm x kk) :=
  ⟨⟨6, 0xF000, 0x3000⟩, by decide, rfl, by simp only [OpcodeRow.spells, encode, regImm_spells]; decide⟩

theorem sneImm (x : Reg) (kk : Byte) : Statement (.sneImm x kk) :=
  ⟨⟨7, 0xF000, 0x4000⟩, by decide, rfl, by simp only [OpcodeRow.spells, encode, regImm_spells]; decide⟩

theorem seReg (x y : Reg) : Statement (.seReg x y) :=
  ⟨⟨8, 0xF00F, 0x5000⟩, by decide, rfl, by simp only [OpcodeRow.spells, encode, regReg_spells]; decide⟩

theorem ldImm (x : Reg) (kk : Byte) : Statement (.ldImm x kk) :=
  ⟨⟨9, 0xF000, 0x6000⟩, by decide, rfl, by simp only [OpcodeRow.spells, encode, regImm_spells]; decide⟩

theorem addImm (x : Reg) (kk : Byte) : Statement (.addImm x kk) :=
  ⟨⟨10, 0xF000, 0x7000⟩, by decide, rfl, by simp only [OpcodeRow.spells, encode, regImm_spells]; decide⟩

theorem ldReg (x y : Reg) : Statement (.ldReg x y) :=
  ⟨⟨11, 0xF00F, 0x8000⟩, by decide, rfl, by simp only [OpcodeRow.spells, encode, regReg_spells]; decide⟩

theorem orReg (x y : Reg) : Statement (.orReg x y) :=
  ⟨⟨12, 0xF00F, 0x8001⟩, by decide, rfl, by simp only [OpcodeRow.spells, encode, regReg_spells]; decide⟩

theorem andReg (x y : Reg) : Statement (.andReg x y) :=
  ⟨⟨13, 0xF00F, 0x8002⟩, by decide, rfl, by simp only [OpcodeRow.spells, encode, regReg_spells]; decide⟩

theorem xorReg (x y : Reg) : Statement (.xorReg x y) :=
  ⟨⟨14, 0xF00F, 0x8003⟩, by decide, rfl, by simp only [OpcodeRow.spells, encode, regReg_spells]; decide⟩

theorem addReg (x y : Reg) : Statement (.addReg x y) :=
  ⟨⟨15, 0xF00F, 0x8004⟩, by decide, rfl, by simp only [OpcodeRow.spells, encode, regReg_spells]; decide⟩

theorem sub (x y : Reg) : Statement (.sub x y) :=
  ⟨⟨16, 0xF00F, 0x8005⟩, by decide, rfl, by simp only [OpcodeRow.spells, encode, regReg_spells]; decide⟩

theorem shr (x y : Reg) : Statement (.shr x y) :=
  ⟨⟨17, 0xF00F, 0x8006⟩, by decide, rfl, by simp only [OpcodeRow.spells, encode, regReg_spells]; decide⟩

theorem subn (x y : Reg) : Statement (.subn x y) :=
  ⟨⟨18, 0xF00F, 0x8007⟩, by decide, rfl, by simp only [OpcodeRow.spells, encode, regReg_spells]; decide⟩

theorem shl (x y : Reg) : Statement (.shl x y) :=
  ⟨⟨19, 0xF00F, 0x800E⟩, by decide, rfl, by simp only [OpcodeRow.spells, encode, regReg_spells]; decide⟩

theorem sneReg (x y : Reg) : Statement (.sneReg x y) :=
  ⟨⟨20, 0xF00F, 0x9000⟩, by decide, rfl, by simp only [OpcodeRow.spells, encode, regReg_spells]; decide⟩

theorem ldI (nnn : AddrField) : Statement (.ldI nnn) :=
  ⟨⟨21, 0xF000, 0xA000⟩, by decide, rfl, by simp only [OpcodeRow.spells, encode, addr_spells]; decide⟩

theorem jpV0 (nnn : AddrField) : Statement (.jpV0 nnn) :=
  ⟨⟨22, 0xF000, 0xB000⟩, by decide, rfl, by simp only [OpcodeRow.spells, encode, addr_spells]; decide⟩

theorem rnd (x : Reg) (kk : Byte) : Statement (.rnd x kk) :=
  ⟨⟨23, 0xF000, 0xC000⟩, by decide, rfl, by simp only [OpcodeRow.spells, encode, regImm_spells]; decide⟩

theorem drw (x y : Reg) (n : RowCount) : Statement (.drw x y n) :=
  ⟨⟨24, 0xF000, 0xD000⟩, by decide, rfl, by simp only [OpcodeRow.spells, encode, regRegN_spells]; decide⟩

end Sys2Proof.Laws.EncodesItsRow
end

