-- ==== Sys2Proof/Tests/Slice0.lean ====
section
/-! SUPPORT. The model's own tests. Expected results are the worked examples and vectors of spec/95_test_vectors.md and of
the instruction rules, or hand calculation from them. Then, for every statement with hypotheses, a state and operands that
meet them. -/

namespace Sys2Proof.Tests

open Sys2Proof.Machine

/-! ### Well-formedness -/

/-- INSTR_HZ = 0 is refused, the default is accepted. -/
theorem test_instrHz_zero_refused :
    Config.wellFormed { Config.default .timerFirst with instrHz := 0 } = false ∧
      Config.wellFormed (Config.default .timerFirst) = true := by decide

/-- L2.9: an image of 3585 bytes is refused, one of 3584 accepted. -/
theorem test_image_size :
    imageWellFormed (List.replicate 3585 0) = false ∧ imageWellFormed (List.replicate 3584 0) = true := by
  simp only [imageWellFormed, List.length_replicate]
  decide

/-- Memory out of order, past the end, or listing what an unlisted address reads as, is not in canonical form. -/
theorem test_memory_form :
    ¬ Memory.wf State.reset.config [(0x300, 1), (0x200, 1)] ∧ ¬ Memory.wf State.reset.config [(0x1000, 1)] ∧
      ¬ Memory.wf State.reset.config [(0x300, 0)] ∧ Memory.wf State.reset.config [(0x200, 1), (0x300, 1)] := by
  decide

/-! ### Decoding: every constructor by a word written from R77 (L2.1) -/

theorem test_decode_op0 :
    decode 0b0000_0000_0000_0000 = .instr .halt ∧ decode 0b0000_0000_1110_0000 = .instr .cls ∧
      decode 0b0000_0000_1110_1110 = .instr .ret := by decide

theorem test_decode_addr :
    decode 0b0001_1010_1011_1100 = .instr (.jp 0xABC) ∧ decode 0b0010_0011_0000_0001 = .instr (.call 0x301) ∧
      decode 0b1010_1011_1011_1100 = .instr (.ldI 0xBBC) ∧ decode 0b1011_1111_1111_1110 = .instr (.jpV0 0xFFE) := by
  decide

theorem test_decode_regImm :
    decode 0b0011_0011_0001_0010 = .instr (.seImm 0x3 0x12) ∧ decode 0b0100_0100_0001_0011 = .instr (.sneImm 0x4 0x13) ∧
      decode 0b0110_1010_0010_1011 = .instr (.ldImm 0xA 0x2B) ∧ decode 0b0111_0010_0000_0011 = .instr (.addImm 2 3) ∧
      decode 0b1100_1111_1111_0000 = .instr (.rnd 0xF 0xF0) := by decide

theorem test_decode_regReg :
    decode 0b0101_0001_0010_0000 = .instr (.seReg 1 2) ∧ decode 0b1001_0011_0100_0000 = .instr (.sneReg 3 4) ∧
      decode 0b1101_0001_0010_0101 = .instr (.drw 1 2 5) := by decide

theorem test_decode_op8_logic :
    decode 0b1000_0001_0010_0000 = .instr (.ldReg 1 2) ∧ decode 0b1000_0001_0010_0001 = .instr (.orReg 1 2) ∧
      decode 0b1000_0001_0010_0010 = .instr (.andReg 1 2) ∧ decode 0b1000_0001_0010_0011 = .instr (.xorReg 1 2) := by
  decide

theorem test_decode_op8_arithmetic :
    decode 0b1000_0001_0010_0100 = .instr (.addReg 1 2) ∧ decode 0b1000_0001_0010_0101 = .instr (.sub 1 2) ∧
      decode 0b1000_0001_0010_0110 = .instr (.shr 1 2) ∧ decode 0b1000_0001_0010_0111 = .instr (.subn 1 2) ∧
      decode 0b1000_0001_0010_1110 = .instr (.shl 1 2) := by decide

theorem test_decode_illegal :
    [0x0001, 0x00E1, 0x00FF, 0x0100, 0x0FFF, 0x512F, 0x9AB1, 0x8008, 0x800F, 0xE09E, 0xF065, 0xFFFF].all
      (fun w => (decode (BitVec.ofNat 16 w)).toOption == none) = true := by decide

theorem test_decodeTableWord :
    decodeTableWord 16 0xD125 = some (.drw 1 2 5) ∧ decodeTableWord 16 0x0001 = none := by decide

/-! ### One instruction on a small state -/

/-- The state after the next step runs a word at 0x200. -/
def after (w : Nat) (s : State) : Option State :=
  match step (s.withFetchWord 16 w) with
  | .next t => some t
  | _ => none

/-- The machine after reset with two registers set. -/
def withRegs (x : Reg) (a : Byte) (y : Reg) (b : Byte) : State := (State.reset.setReg x a).setReg y b

/-- PC and the status after a word. -/
def pcStatus (w : Nat) (s : State) : Option (Word × RunStatus) := (after w s).map (fun t => (t.pc, t.status))

/-- Two registers after a word. -/
def regs (w : Nat) (x y : Reg) (s : State) : Option (Byte × Byte) := (after w s).map (fun t => (t.reg x, t.reg y))

theorem test_halt : pcStatus 0x0000 State.reset = some (0x202, .halted) := by decide

/-- Coming down from an on pixel, with VF = 0x33 (L2.3). -/
theorem test_cls :
    (after 0x00E0 ((State.reset.setFb (FrameBuffer.blank.flip 0 0)).setReg vf 0x33)).map
      (fun t => (t.fb.pixel 0 0, t.reg vf, t.trace.length)) = some (false, 0x33, 0) := by decide

theorem test_ret :
    (after 0x00EE (State.reset.push 0x206)).map (fun t => (t.pc, t.stack)) = some (0x206, []) := by decide

theorem test_ret_underflow :
    pcStatus 0x00EE State.reset = some (0x202, .faulted (.stackUnderflow 0x200)) := by decide

theorem test_jp : pcStatus 0x1ABD State.reset = some (0xABD, .running) := by decide

theorem test_call :
    (after 0x2300 State.reset).map (fun t => (t.pc, t.stack)) = some (0x300, [0x202]) := by decide

/-- L2.4: STACK_LIMIT = 3 and three entries. -/
theorem test_call_overflow :
    pcStatus 0x2300 { State.reset with
      config := { State.reset.config with stackLimit := some 3 }, stack := [0x202, 0x202, 0x202] } =
      some (0x202, .faulted (.stackOverflow 0x200)) := by decide

theorem test_seImm :
    pcStatus 0x3312 (withRegs 3 0x12 0 0) = some (0x204, .running) ∧
      pcStatus 0x3313 (withRegs 3 0x12 0 0) = some (0x202, .running) := by decide

theorem test_sneImm :
    pcStatus 0x4312 (withRegs 3 0x12 0 0) = some (0x202, .running) ∧
      pcStatus 0x4313 (withRegs 3 0x12 0 0) = some (0x204, .running) := by decide

theorem test_seReg :
    pcStatus 0x5120 (withRegs 1 7 2 7) = some (0x204, .running) ∧
      pcStatus 0x5120 (withRegs 1 7 2 8) = some (0x202, .running) := by decide

theorem test_sneReg :
    pcStatus 0x9120 (withRegs 1 7 2 8) = some (0x204, .running) ∧
      pcStatus 0x9110 (withRegs 1 7 2 8) = some (0x202, .running) := by decide

theorem test_jpV0 : pcStatus 0xBFFF (withRegs 0 0xFF 1 0) = some (0x10FE, .running) := by decide

theorem test_ldImm : regs 0x6A2B 0xA vf State.reset = some (0x2B, 0) := by decide

theorem test_addImm :
    regs 0x7203 2 vf (withRegs 2 0xFE vf 0x33) = some (0x01, 0x33) ∧
      regs 0x7F01 0 vf (withRegs 0 0 vf 0xFF) = some (0x00, 0x00) := by decide

theorem test_ldReg : regs 0x8010 0 1 (withRegs 0 0 1 0x55) = some (0x55, 0x55) := by decide

theorem test_orReg : regs 0x8011 0 vf ((withRegs 0 0xF0 1 0x0F).setReg vf 0x77) = some (0xFF, 0x77) := by decide

theorem test_andReg : regs 0x8012 0 1 (withRegs 0 0xF0 1 0x3C) = some (0x30, 0x3C) := by decide

theorem test_xorReg : regs 0x8013 0 1 (withRegs 0 0xFF 1 0x0F) = some (0xF0, 0x0F) := by decide

theorem test_addReg :
    regs 0x8014 0 vf (withRegs 0 0xC8 1 0x64) = some (0x2C, 1) ∧
      regs 0x8F14 1 vf (withRegs vf 0x10 1 0xF0) = some (0xF0, 0x01) := by decide

theorem test_sub :
    regs 0x8015 0 vf (withRegs 0 0x05 1 0x06) = some (0xFF, 0) ∧
      regs 0x8015 0 vf (withRegs 0 0x05 1 0x05) = some (0x00, 1) := by decide

theorem test_subn :
    regs 0x8017 0 vf (withRegs 0 0x05 1 0x03) = some (0xFE, 0) ∧
      regs 0x8017 0 vf (withRegs 0 0x03 1 0x05) = some (0x02, 1) := by decide

/-- L2.5: LEGACY_SHIFT off, y ignored; and 8FF6 with VF = 0x81 leaves the flag. -/
theorem test_shr :
    regs 0x8016 0 vf (withRegs 0 0xBF 1 0x02) = some (0x5F, 1) ∧
      regs 0x8FF6 0 vf (withRegs 0 0 vf 0x81) = some (0, 0x01) := by decide

/-- L2.5, legacy: V1 is shifted into V0. -/
theorem test_shl_legacy :
    regs 0x801E 0 vf { withRegs 0 0x00 1 0x81 with config := { State.reset.config with legacyShift := true } } =
      some (0x02, 1) ∧ regs 0x801E 0 vf (withRegs 0 0x7F 1 0x81) = some (0xFE, 0) := by decide

theorem test_ldI : (after 0xABBC State.reset).map (fun t => (t.i, t.pc)) = some (0x0BBC, 0x202) := by decide

/-- L2.6: a draw of 0xA7 masked by 0x0F. -/
theorem test_rnd :
    (after 0xC30F { State.reset with replay := [0xA7] }).map (fun t => (t.reg 3, t.replay, t.drawCount)) =
      some (0x07, [], 1) := by decide

/-- With no byte to replay the draw is the free value, whatever it is. -/
theorem test_rnd_free :
    execRnd 3 0x0F State.reset = .next (State.reset.afterDraw.setReg 3 (Config.freeDraw 0 &&& 0x0F)) := rfl

/-- R199: the glyph 0 at the top left; its second row is `#..#....`. -/
theorem test_drw :
    (after 0xD005 State.reset).map (fun t => ((List.finRange 64).filter (fun c => t.fb.pixel 1 c), t.reg vf, t.trace.length)) =
      some ([0, 3], 0, 1) := by decide

/-- L2.7: VF = 5 is both coordinates of DFF1, read before VF is written; and I = 0xFFF with n = 2 faults. -/
theorem test_drw_vf_coordinates_and_fault :
    (after 0xDFF1 (State.reset.setReg vf 5)).map
      (fun t => ((List.finRange 64).filter (fun c => t.fb.pixel 5 c), t.reg vf)) = some ([5, 6, 7, 8], 0) ∧
    pcStatus 0xD012 (State.reset.setI 0xFFF) = some (0x202, .faulted (.memoryOutOfRange 0x1000 0x200)) := by decide

/-! ### Compositor, cycle, timers, schedule, loader -/

/-- L3.P8: sprite FF 81 at column 63, row 31 wraps both ways: 7 + 1 pixels on row 31, (0,63) and (0,6) on row 0. -/
theorem test_compose_wraps :
    (List.finRange 64).filter (fun c => (compose [0xFF, 0x81] 63 31 FrameBuffer.blank).1.pixel 31 c) =
        [0, 1, 2, 3, 4, 5, 6, 63] ∧
      (List.finRange 64).filter (fun c => (compose [0xFF, 0x81] 63 31 FrameBuffer.blank).1.pixel 0 c) = [6, 63] := by
  decide

/-- L1.4, third row: P = one pixel, S = two; both draws collide and P is restored. -/
theorem test_compose_twice :
    let p := FrameBuffer.blank.flip 0 0
    let first := compose [0xC0] 0 0 p
    let second := compose [0xC0] 0 0 first.1
    first.2 = true ∧ second.2 = true ∧ second.1 = p := by decide

/-- L2.2: the fetch faults, alignment first; and an illegal word. -/
theorem test_fetch_faults :
    (match step (State.reset.setPc 0x1001) with | .next t => some (t.pc, t.status) | _ => none) =
        some (0x1001, .faulted (.misalignedFetch 0x1001)) ∧
      (match step (State.reset.setPc 0x1000) with | .next t => some (t.pc, t.status) | _ => none) =
        some (0x1000, .faulted (.fetchOutOfRange 0x1000)) ∧
      pcStatus 0xF00A State.reset = some (0x202, .faulted (.decodeFailure 0xF00A 0x200)) := by decide

/-- L1.8: program 7001 0000, DT0 = 3, events I I T I I I T I T I I: halted with V0 = 1, PC = 0x204, DT = 0. -/
theorem test_gating :
    (match runEvents [.instr, .instr, .timer, .instr, .instr, .instr, .timer, .instr, .timer, .instr, .instr]
        ((State.create (Config.default .timerFirst) 3 0).putBytes 0x200 [0x70, 0x01, 0x00, 0x00]) with
      | .next t => some (t.dt, t.pc, t.reg 0, t.status)
      | _ => none) = some (0, 0x204, 1, .halted) := by decide

/-- L2.8: each timer counts on its own and stops at zero. -/
theorem test_timers :
    (match handleEvent .timer (State.create (Config.default .timerFirst) 0 5) with
      | .next t => some (t.dt, t.st)
      | _ => none) = some (0, 4) := by decide

/-- R113: 11, 12 and 12 instruction events in the first three timer periods. -/
theorem test_nominal :
    (nominalEvents { Config.default .timerFirst with tieOrder := .instrFirst } 38).splitOn .timer =
      [List.replicate 11 .instr, List.replicate 12 .instr, List.replicate 12 .instr, []] := by decide

/-- Writing what an unlisted address reads as removes the entry, the font's byte at 0x000 included. -/
theorem test_memory_write :
    ((State.reset.putByte 0 0x12).putByte 0x300 7).mem = [(0, 0x12), (0x300, 7)] ∧
      (((State.reset.putByte 0 0x12).putByte 0x300 7).putByte 0 0xF0).mem = [(0x300, 7)] := by decide

/-- R210: code 7 is the oversized image's, and no other rejection has one of these codes. -/
theorem test_image_code :
    Refusal.code (.imageTooLarge 3585) = some 7 ∧ Result.code (.next (State.reset.raise (.stackOverflow 0x200))) = some 6 := by
  decide

theorem test_unfaulted : State.reset.unfaulted := by intro e h; cases h

/-! ### Witnesses: states and operands that meet the statements' hypotheses -/

/-- R78's family has words for every minor opcode, 8..D and F among them. -/
theorem witness_LowNibbleSelectsInTheEightFamily :
    (List.range 16).all (fun n => (fieldOp (BitVec.ofNat 16 (0x8120 + n))).toNat == 8 &&
      (fieldN (BitVec.ofNat 16 (0x8120 + n))).toNat == n) = true := by decide

theorem witness_EncodeOfDecodeIsIdentity : decode 0x8FFE = .instr (.shl 0xF 0xF) := by decide

theorem witness_OversizedImageIsRejected :
    3584 < (List.replicate 3585 (0 : Byte)).length ∧ (List.replicate 3584 (0 : Byte)).length ≤ 3584 := by
  simp only [List.length_replicate]
  decide

theorem witness_LoaderCopiesTheImage :
    (List.replicate 3584 (1 : Byte)).length ≤ 3584 ∧ Memory.wf State.reset.config State.reset.mem :=
  ⟨by rw [List.length_replicate], reset_memory_wf⟩

/-- A machine with HALT's word at its PC 0x200, and one with PC at the last word. -/
theorem witness_StepRunsTheDecodedInstruction :
    ∃ (s : State) (i : Instr), s.status = .running ∧ s.nextEvent = .instr ∧ s.dt = 0 ∧ s.pc.toNat % 2 = 0 ∧
      s.pc.toNat ≤ 0xFFE ∧ decode (wordOfBytes (s.byteAt s.pc.toNat) (s.byteAt (s.pc.toNat + 1))) = .instr i :=
  ⟨State.reset.setPc 0xFFE, .halt, by decide⟩

theorem witness_FetchIsBigEndian : (State.reset.setPc 0xFFE).pc.toNat % 2 = 0 ∧ (State.reset.setPc 0xFFE).pc.toNat ≤ 0xFFE := by
  decide

theorem witness_FetchFaults :
    (State.reset.setPc 0x201).pc.toNat % 2 = 1 ∧ (State.reset.setPc 0x1000).pc.toNat % 2 = 0 ∧
      0xFFE < (State.reset.setPc 0x1000).pc.toNat := by decide

/-- A step may meet either fetch fault. -/
theorem witness_FetchFaultsInAStep :
    (State.reset.setPc 0x201).status = .running ∧ (State.reset.setPc 0x201).nextEvent = .instr ∧
      (State.reset.setPc 0x201).dt = 0 ∧ (State.reset.setPc 0x1000).status = .running ∧
      (State.reset.setPc 0x1000).nextEvent = .instr ∧ (State.reset.setPc 0x1000).dt = 0 := by decide

/-- So may an illegal word. -/
theorem witness_IllegalWordInAStep :
    ∃ s w, fetch s = .ok w ∧ legalWord w = false ∧ s.status = .running ∧ s.nextEvent = .instr ∧ s.dt = 0 :=
  ⟨State.reset.putBytes 0x200 [0xF0, 0x0A], 0xF00A, rfl, by decide, rfl, rfl, rfl⟩

theorem witness_IllegalWordRaisesDecodeFailure :
    ∃ s w, fetch s = .ok w ∧ legalWord w = false := by
  refine ⟨State.reset.putBytes 0x200 [0xF0, 0x0A], 0xF00A, rfl, by decide⟩

theorem witness_DelayTimerGatesAnInstructionEvent :
    State.reset.status = .running ∧ State.reset.dt = 0 ∧
      (State.create (Config.default .timerFirst) 2 0).status = .running ∧
      (State.create (Config.default .timerFirst) 2 0).dt ≠ 0 := by decide

/-- The next event is an instruction event, listed or not, with DT = 0 and with DT = 2. -/
theorem witness_gating_in_a_step :
    State.reset.nextEvent = .instr ∧
      { State.create (Config.default .timerFirst) 2 0 with events := [.instr, .timer] }.nextEvent = .instr ∧
      { State.create (Config.default .timerFirst) 2 0 with events := [.instr, .timer] }.dt ≠ 0 := by decide

/-- The next event is a timer event, with timers that stop at zero and that go on. -/
theorem witness_timer_in_a_step :
    { State.create (Config.default .timerFirst) 0 255 with events := [.timer] }.status = .running ∧
      { State.create (Config.default .timerFirst) 0 255 with events := [.timer] }.nextEvent = .timer := by decide

theorem witness_TimerEventCountsBothTimersDown : (State.create (Config.default .timerFirst) 255 1).status = .running := rfl

theorem witness_AnEndedRunNeverChanges :
    State.reset.halt.status ≠ .running ∧ (State.reset.raise (.misalignedFetch 0x201)).status ≠ .running := by decide

/-- Reset runs off into zero memory and halts. -/
theorem witness_OnlyTheZeroWordHalts :
    ∃ s t, step s = .next t ∧ s.status = .running ∧ t.status = .halted := ⟨State.reset, _, rfl, rfl, rfl⟩

/-- One run into each of the six faults. -/
theorem witness_OnlyTheListedFaultsEndARun :
    ∀ f ∈ [Fault.misalignedFetch 0x201, .fetchOutOfRange 0x1000, .decodeFailure 0xF00A 0x200, .stackUnderflow 0x200,
        .stackOverflow 0x200, .memoryOutOfRange 0x1000 0x200],
      ∃ s t, step s = .next t ∧ s.status = .running ∧ t.status = .faulted f := by
  intro f hf
  simp only [List.mem_cons, List.not_mem_nil, or_false] at hf
  rcases hf with rfl | rfl | rfl | rfl | rfl | rfl
  · exact ⟨State.reset.setPc 0x201, _, rfl, rfl, rfl⟩
  · exact ⟨State.reset.setPc 0x1000, _, rfl, rfl, rfl⟩
  · exact ⟨State.reset.withFetchWord 16 0xF00A, _, rfl, rfl, rfl⟩
  · exact ⟨State.reset.withFetchWord 16 0x00EE, _, rfl, rfl, rfl⟩
  · exact ⟨{ State.reset with config := { State.reset.config with stackLimit := some 0 } }.withFetchWord 16 0x2200,
      _, rfl, rfl, rfl⟩
  · exact ⟨(State.reset.setI 0xFFF).withFetchWord 16 0xD012, _, rfl, rfl, rfl⟩

theorem witness_NonzeroDelayTimerPausesExecution :
    (State.create (Config.default .timerFirst) 3 0).status = .running ∧
      timerCount [.instr, .timer, .instr, .timer] < (State.create (Config.default .timerFirst) 3 0).dt.toNat := by decide

/-- Alternating events are fair. -/
theorem witness_FairEventsEndThePause :
    FairEvents (fun n => if n % 2 = 0 then .timer else .instr) ∧
      (State.create (Config.default .timerFirst) 255 0).status = .running := by
  refine ⟨⟨fun n => ⟨2 * n, by omega, by simp⟩, fun n => ⟨2 * n + 1, by omega, ?_⟩⟩, rfl⟩
  have : (2 * n + 1) % 2 = 1 := by omega
  simp [this]

theorem witness_NominalScheduleAt700Hz :
    (Config.default .timerFirst).instrHz = 700 ∧ (Config.default .timerFirst).tieOrder = .timerFirst ∧
      (Config.default .instrFirst).instrHz = 700 ∧ (Config.default .instrFirst).tieOrder = .instrFirst := by decide

theorem witness_PlacedWordRunsNext :
    Memory.wf State.reset.config State.reset.mem ∧ decode (BitVec.ofNat 16 0x6A2B) = .instr (.ldImm 0xA 0x2B) :=
  ⟨reset_memory_wf, by decide⟩

/-- An odd PC, and one past 0xFFE. -/
theorem witness_PlacedWordAtLoadAddress :
    (State.reset.setPc 0x301).pc.toNat % 2 = 1 ∧ 0xFFE < (State.reset.setPc 0x1000).pc.toNat ∧
      Memory.wf (State.reset.setPc 0x301).config (State.reset.setPc 0x301).mem :=
  ⟨by decide, by decide, reset_memory_wf⟩

/-- Zero bytes at PC; and a halted machine. -/
theorem witness_HaltEndsTheRun :
    State.reset.pc.toNat % 2 = 0 ∧ State.reset.pc.toNat ≤ 0xFFE ∧ State.reset.byteAt State.reset.pc.toNat = 0 ∧
      State.reset.byteAt (State.reset.pc.toNat + 1) = 0 ∧ State.reset.halt.status = .halted := by decide

theorem witness_RetPopsThePc : (State.reset.push 0x206).stack = [] ++ [0x206] := rfl

theorem witness_RetOnEmptyStackUnderflows : State.reset.stack = [] := rfl

/-- A machine at 0x200 whose word there is 0x1200. -/
theorem witness_JumpSetsPcAndToItselfLoops :
    ∃ (nnn : AddrField) (s : State), s.status = .running ∧ s.pc.toNat = nnn.toNat ∧ fetch s = .ok (addrWord 1 nnn) :=
  ⟨0x200, State.reset.withFetchWord 16 0x1200, rfl, rfl, rfl⟩

/-- An unbounded stack, and a bounded one with room; then a full one. -/
theorem witness_CallPushesAndJumps :
    State.reset.config.stackLimit ≠ some State.reset.stack.length ∧
      some 1 ≠ some State.reset.stack.length := by decide

theorem witness_CallOnFullStackOverflows :
    ∃ s : State, s.config.stackLimit = some s.stack.length :=
  ⟨{ State.reset with config := { State.reset.config with stackLimit := some 1 }, stack := [0x202] }, rfl⟩

/-- A taken skip of each kind. -/
theorem witness_TakenSkipIgnoresTheSkippedWord :
    ∃ s w, fetch s = .ok w ∧ ∃ x kk, decode w = .instr (.seImm x kk) ∧ s.reg x = kk :=
  ⟨State.reset.withFetchWord 16 0x3000, 0x3000, rfl, 0, 0, rfl, rfl⟩

theorem witness_TakenSkipOnDifference :
    ∃ s w, fetch s = .ok w ∧ ∃ x kk, decode w = .instr (.sneImm x kk) ∧ s.reg x ≠ kk :=
  ⟨State.reset.withFetchWord 16 0x4001, 0x4001, rfl, 0, 1, rfl, by decide⟩

theorem witness_TakenSkipOnEqualRegisters :
    ∃ s w, fetch s = .ok w ∧ ∃ x y, decode w = .instr (.seReg x y) ∧ s.reg x = s.reg y :=
  ⟨State.reset.withFetchWord 16 0x5120, 0x5120, rfl, 1, 2, rfl, rfl⟩

theorem witness_TakenSkipOnDifferentRegisters :
    ∃ s w, fetch s = .ok w ∧ ∃ x y, decode w = .instr (.sneReg x y) ∧ s.reg x ≠ s.reg y :=
  ⟨(State.reset.setReg 1 7).withFetchWord 16 0x9120, 0x9120, rfl, 1, 2, rfl, by decide⟩

theorem witness_SkipsOnRegisters : (0 : Nat) < 15 ∧ 15 < 16 := by decide

theorem witness_flag_register_and_another : (0 : Reg) ≠ vf ∧ ¬ (0xF : Reg) ≠ vf := by decide

/-- Both dialects of the shifts have an operand. -/
theorem witness_ShiftsSetTheBitShiftedOut :
    ∃ (s : State) (v : Byte), v = (if s.config.legacyShift = true then s.reg 1 else s.reg 0) :=
  ⟨withRegs 0 0xBF 1 0x02, 0xBF, by decide⟩

theorem witness_ShiftExampleOfTheSource : (0 : Reg) ≠ vf ∧ (State.reset.setReg 0 0xBF).reg 0 = 0b10111111 := by decide

theorem witness_sprite_length : ([0xFF, 0x81] : List Byte).length ≤ 15 := by decide

/-- The last n that fits at 0xFFF is 1; with n = 0 any I will do. -/
theorem witness_DrawXorsTheSpriteWithWrap :
    ∃ (n : RowCount) (s : State) (sprite : List Byte), (∀ r, r < n.val → s.i.toNat + r ≤ 0xFFF) ∧
      sprite = (List.range n.val).map (fun r => s.byteAt (s.i.toNat + r)) :=
  ⟨1, State.reset.setI 0xFFF, [0], by decide, by decide⟩

theorem witness_DrawPastMemoryFaults :
    ∃ (n : RowCount) (s : State) (r : Nat), r < n.val ∧ 0xFFF < s.i.toNat + r ∧ ∀ r', r' < r → s.i.toNat + r' ≤ 0xFFF :=
  ⟨2, State.reset.setI 0xFFF, 1, by decide, by decide, by decide⟩

theorem witness_InstructionsWriteOnlyTheirOwn : ∃ t, exec (.addReg 0 1) State.reset = .next t := ⟨_, rfl⟩

theorem witness_InstructionFaultsArePrecise :
    ∃ s t f, s.status = .running ∧ exec .ret s = .next t ∧ t.status = .faulted f :=
  ⟨State.reset, _, _, rfl, rfl, rfl⟩

theorem witness_OnlyTimerEventsChangeTheTimers :
    ∃ s t, step s = .next t ∧ (t.dt ≠ s.dt ∨ t.st ≠ s.st) :=
  ⟨{ State.create (Config.default .timerFirst) 3 0 with events := [.timer] }, _, rfl, .inl (by decide)⟩

/-- The launch state of the empty image is the reset state. -/
theorem witness_InvariantAtLaunch :
    loadImage [] (State.create (Config.default .timerFirst) 0 0) = .next State.reset := rfl

/-- A list of events, and none. -/
theorem witness_StepHandlesTheNextEvent :
    State.reset.status = .running ∧ State.reset.events = [] ∧
      { State.reset with events := [.timer, .instr] }.status = .running ∧
      { State.reset with events := [.timer, .instr] }.events = .timer :: [.instr] := by decide

/-- A run that has gone on after two steps of its list. -/
theorem witness_StepsAreTheRunOverTheComingEvents :
    (match runSteps 2 { State.create (Config.default .timerFirst) 3 0 with events := [.timer, .instr, .timer] } with
      | .next t => some (t.status, t.dt, t.events)
      | _ => none) = some (.running, 2, [.timer]) := by decide

/-- A running machine, a step into a fault, and images of both sizes. -/
theorem witness_OutcomeCodes :
    State.reset.status = .running ∧
      (∃ t f, step (State.reset.setPc 0x201) = .next t ∧ t.status = .faulted f) ∧
      3584 < (List.replicate 3585 (0 : Byte)).length ∧ (List.replicate 3584 (0 : Byte)).length ≤ 3584 := by
  refine ⟨rfl, ⟨_, _, rfl, rfl⟩, ?_⟩
  simp only [List.length_replicate]
  decide

end Sys2Proof.Tests
end

/-! PROOFS of the family 10_state.md, first part: what one update, one instruction, one cycle and one step may change
(R24, R27, R30 to R33, R37, R55). -/

namespace Sys2Proof.Machine

/-! ### Keeping components: composition -/

theorem Keeps.trans {s t u : State} {c : Component} (h : Keeps s t c) (h' : Keeps t u c) : Keeps s u c := by
  cases c with
  | memory => exact fun a => (h' a).trans (h a)
  | _ => exact Eq.trans h' h

theorem ChangesOnly.keeps {ws : List Component} {s t : State} (h : ChangesOnly ws s t) {c : Component}
    (hc : c ∉ ws) : Keeps s t c := h c hc

theorem ChangesOnly.refl (ws : List Component) (s : State) : ChangesOnly ws s s := by
  intro c _
  cases c with
  | memory => exact fun _ => rfl
  | _ => rfl

theorem ChangesOnly.mono {ws ws' : List Component} {s t : State} (h : ChangesOnly ws s t) (hsub : ws ⊆ ws') :
    ChangesOnly ws' s t := fun c hc => h c fun hm => hc (hsub hm)

theorem ChangesOnly.trans {ws ws' : List Component} {s t u : State} (h : ChangesOnly ws s t)
    (h' : ChangesOnly ws' t u) : ChangesOnly (ws ++ ws') s u := by
  intro c hc
  rw [List.mem_append, not_or] at hc
  exact (h.keeps hc.1).trans (h'.keeps hc.2)

/-! ### The frame of each named update -/

theorem changesOnly_setReg (s : State) (x : Reg) (b : Byte) : ChangesOnly [.reg x] s (s.setReg x b) := by
  intro c hc
  cases c with
  | reg r => exact reg_setReg_ne s x r b (by simpa using hc)
  | memory => exact fun _ => rfl
  | _ => rfl

theorem changesOnly_setRegThenFlag (s : State) (x : Reg) (result flag : Byte) :
    ChangesOnly [.reg x, .reg vf] s (s.setRegThenFlag x result flag) :=
  (changesOnly_setReg s x result).trans (changesOnly_setReg _ vf flag)

theorem changesOnly_setPc (s : State) (a : Word) : ChangesOnly [.pc] s (s.setPc a) := by
  intro c hc
  cases c with
  | pc => simp at hc
  | memory => exact fun _ => rfl
  | _ => rfl

theorem changesOnly_setI (s : State) (a : Word) : ChangesOnly [.i] s (s.setI a) := by
  intro c hc
  cases c with
  | i => simp at hc
  | memory => exact fun _ => rfl
  | _ => rfl

/-- Any change of the stack alone: a push, or a pop's remainder. -/
theorem changesOnly_stack (s : State) (as : List Word) : ChangesOnly [.stack] s { s with stack := as } := by
  intro c hc
  cases c with
  | stack => simp at hc
  | memory => exact fun _ => rfl
  | _ => rfl

theorem changesOnly_push (s : State) (a : Word) : ChangesOnly [.stack] s (s.push a) := changesOnly_stack s _

theorem changesOnly_setFb (s : State) (fb : FrameBuffer) : ChangesOnly [.fb] s (s.setFb fb) := by
  intro c hc
  cases c with
  | fb => simp at hc
  | memory => exact fun _ => rfl
  | _ => rfl

theorem changesOnly_publish (s : State) : ChangesOnly [.trace] s s.publish := by
  intro c hc
  cases c with
  | trace => simp at hc
  | memory => exact fun _ => rfl
  | _ => rfl

theorem changesOnly_afterDraw (s : State) : ChangesOnly [.replay, .drawCount] s s.afterDraw := by
  intro c hc
  cases c with
  | replay | drawCount => simp at hc
  | memory => exact fun _ => rfl
  | _ => rfl

/-- Any change of the run status alone: a halt or a fault (R120, R217). -/
theorem changesOnly_status (s : State) (r : RunStatus) : ChangesOnly [.status] s { s with status := r } := by
  intro c hc
  cases c with
  | status => simp at hc
  | memory => exact fun _ => rfl
  | _ => rfl

theorem changesOnly_halt (s : State) : ChangesOnly [.status] s s.halt := changesOnly_status s _

theorem changesOnly_raise (s : State) (e : Fault) : ChangesOnly [.status] s (s.raise e) := changesOnly_status s _

theorem changesOnly_skipIf (s : State) (b : Bool) : ChangesOnly [.pc] s (s.skipIf b) := by
  rcases skipIf_cases s b with ⟨_, e⟩ | ⟨_, e⟩ <;> rw [e]
  · exact changesOnly_setPc s _
  · exact ChangesOnly.refl _ s

/-! ### The three instructions that branch on the state -/

theorem stackFull_iff (s : State) : s.stackFull = true ↔ s.config.stackLimit = some s.stack.length := by
  cases h : s.config.stackLimit with
  | none => simp [State.stackFull, h]
  | some k => simpa [State.stackFull, h] using eq_comm

/-- RET underflows on an empty stack, and otherwise takes the last entry as PC (R124, R212). -/
theorem execRet_cases (s : State) :
    (s.stack = [] ∧ exec .ret s = .next (s.raise (.stackUnderflow s.fetchAddress))) ∨
      ∃ rest a, s.stack = rest ++ [a] ∧ exec .ret s = .next (({ s with stack := rest } : State).setPc a) := by
  rcases pop_cases s with ⟨h, e⟩ | ⟨rest, a, h, e⟩
  · exact .inl ⟨h, by simp [exec, execRet, e]⟩
  · exact .inr ⟨rest, a, h, by simp [exec, execRet, e]⟩

/-- CALL overflows on a full stack, and otherwise pushes PC and jumps (R132, R213). -/
theorem execCall_cases (nnn : AddrField) (s : State) :
    (s.config.stackLimit = some s.stack.length ∧
        exec (.call nnn) s = .next (s.raise (.stackOverflow s.fetchAddress))) ∨
      (s.config.stackLimit ≠ some s.stack.length ∧
        exec (.call nnn) s = .next ((s.push s.pc).setPc (zextAddr nnn))) := by
  by_cases h : s.stackFull = true
  · exact .inl ⟨(stackFull_iff s).1 h, if_pos h⟩
  · exact .inr ⟨fun e => h ((stackFull_iff s).2 e), if_neg h⟩

/-- DRW faults at the first row above 0xFFF, and otherwise composes, sets VF and publishes (R190, R191, R230). -/
theorem execDrw_cases (x y : Reg) (n : RowCount) (s : State) :
    (∃ a, s.spriteOutOfRange n = some a ∧
        exec (.drw x y n) s = .next (s.raise (.memoryOutOfRange a s.fetchAddress))) ∨
      (s.spriteOutOfRange n = none ∧ ∃ drawn, drawn = compose (s.sprite n) (s.column x) (s.row y) s.fb ∧
        exec (.drw x y n) s = .next ((s.setFb drawn.1).setReg vf (flagByte drawn.2)).publish) := by
  cases h : s.spriteOutOfRange n with
  | some a => exact .inl ⟨a, rfl, by simp [exec, execDrw, h]⟩
  | none => exact .inr ⟨rfl, _, rfl, by simp [exec, execDrw, h]⟩

/-! ### The frame of each instruction -/

/-- A draw's three updates write VF, the frame buffer and the trace. -/
theorem changesOnly_draw (s : State) (fb : FrameBuffer) (flag : Byte) :
    ChangesOnly [.fb, .reg vf, .trace] s ((s.setFb fb).setReg vf flag).publish :=
  ((changesOnly_setFb s fb).trans (changesOnly_setReg _ vf flag)).trans (changesOnly_publish _)

theorem exec_changesOnly {i : Instr} {s t : State} (h : exec i s = .next t) : ChangesOnly (mayWrite i) s t := by
  cases i with
  | halt => cases h; exact changesOnly_halt s
  | cls => cases h; exact changesOnly_setFb s _
  | ret =>
    rcases execRet_cases s with ⟨_, e⟩ | ⟨rest, a, _, e⟩ <;> cases e.symm.trans h
    · exact (changesOnly_raise s _).mono (by simp [mayWrite])
    · exact ((changesOnly_stack s rest).trans (changesOnly_setPc _ a)).mono (by simp [mayWrite])
  | call nnn =>
    rcases execCall_cases nnn s with ⟨_, e⟩ | ⟨_, e⟩ <;> cases e.symm.trans h
    · exact (changesOnly_raise s _).mono (by simp [mayWrite])
    · exact ((changesOnly_push s _).trans (changesOnly_setPc _ _)).mono (by simp [mayWrite])
  | drw x y n =>
    rcases execDrw_cases x y n s with ⟨a, _, e⟩ | ⟨_, drawn, _, e⟩ <;> cases e.symm.trans h
    · exact (changesOnly_raise s _).mono (by simp [mayWrite])
    · exact (changesOnly_draw s _ _).mono (by simp [mayWrite])
  | rnd x kk =>
    cases h
    exact ((changesOnly_afterDraw s).trans (changesOnly_setReg _ x _)).mono (by simp [mayWrite])
  | jp | jpV0 => cases h; exact changesOnly_setPc s _
  | seImm | sneImm | seReg | sneReg => cases h; exact changesOnly_skipIf s _
  | ldI nnn => cases h; exact changesOnly_setI s _
  | ldImm x | addImm x | ldReg x | orReg x | andReg x | xorReg x => cases h; exact changesOnly_setReg s x _
  | addReg x | sub x | shr x | subn x | shl x => cases h; exact changesOnly_setRegThenFlag s x _ _

/-- Settles O50: each instruction is a composition of named updates, and each update has its frame. -/
theorem instructionsWriteOnlyTheirOwn : Obligations.InstructionsWriteOnlyTheirOwn :=
  fun _ _ _ h => exec_changesOnly h

/-! ### What no instruction writes -/

/-- Memory, the timers, the configuration and the event order: in no instruction's write set (R31, R40, R55). -/
def neverWritten : List Component := [.dt, .st, .memory, .config, .events]

theorem not_mem_mayWrite {c : Component} (hc : c ∈ neverWritten) (i : Instr) : c ∉ mayWrite i := by
  simp only [neverWritten, List.mem_cons, List.not_mem_nil, or_false] at hc
  rcases hc with rfl | rfl | rfl | rfl | rfl <;> cases i <;> simp [mayWrite]

theorem exec_keeps {c : Component} (hc : c ∈ neverWritten) {i : Instr} {s t : State} (h : exec i s = .next t) :
    Keeps s t c := (exec_changesOnly h).keeps (not_mem_mayWrite hc i)

/-- Not only every byte: the very list that holds memory is the same. -/
theorem exec_mem {i : Instr} {s t : State} (h : exec i s = .next t) : t.mem = s.mem := by
  cases i with
  | ret => rcases execRet_cases s with ⟨_, e⟩ | ⟨_, _, _, e⟩ <;> cases e.symm.trans h <;> rfl
  | call nnn => rcases execCall_cases nnn s with ⟨_, e⟩ | ⟨_, e⟩ <;> cases e.symm.trans h <;> rfl
  | drw x y n => rcases execDrw_cases x y n s with ⟨_, _, e⟩ | ⟨_, _, _, e⟩ <;> cases e.symm.trans h <;> rfl
  | seImm | sneImm | seReg | sneReg =>
    cases h
    rw [State.skipIf]
    split <;> rfl
  | _ => cases h; rfl

/-! ### What a cycle and a step can do -/

/-- A cycle raises a fault of the fetch or of the decoder, or executes an instruction fetched from an even PC of at most
0xFFE, with PC advanced by 2 (R101, R102). -/
theorem cycle_cases {s t : State} (h : cycle s = .next t) :
    (∃ e, fetch s = .error e ∧ t = s.raise e) ∨
    (s.pc.toNat % 2 = 0 ∧ s.pc.toNat ≤ 0xFFE ∧ ∃ w, fetch s = .ok w ∧
      ((∃ why, decode w = .failure why ∧ t = (s.setPc (s.pc + 2)).raise (.decodeFailure w s.pc)) ∨
       (∃ i, decode w = .instr i ∧ exec i (s.setPc (s.pc + 2)) = .next t))) := by
  rcases fetch_cases s with ⟨_, e⟩ | ⟨_, _, e⟩ | ⟨heven, hle, e⟩
  · exact .inl ⟨_, e, by cases (cycle_of_fetch_error s _ e).symm.trans h; rfl⟩
  · exact .inl ⟨_, e, by cases (cycle_of_fetch_error s _ e).symm.trans h; rfl⟩
  · refine .inr ⟨heven, hle, _, e, ?_⟩
    cases hd : decode (wordOfBytes (s.byteAt s.pc.toNat) (s.byteAt (s.pc.toNat + 1))) with
    | failure why => exact .inl ⟨why, rfl, by cases (cycle_of_decode_failure s _ why e hd).symm.trans h; rfl⟩
    | instr i => exact .inr ⟨i, rfl, (cycle_of_instr s _ i e hd).symm.trans h⟩

theorem handleEvent_timer {s : State} (h : s.status = .running) : handleEvent .timer s = timerEvent s := by
  simp [handleEvent, (ended_eq_false s).2 h]

theorem handleEvent_instr {s : State} (h : s.status = .running) : handleEvent .instr s = instructionEvent s := by
  simp [handleEvent, (ended_eq_false s).2 h]

theorem step_of_not_running {s : State} (h : s.status ≠ .running) : step s = .next s := by
  have he : s.ended = true := by simpa using mt (ended_eq_false s).1 h
  simp [step, schedulerStep, he]

theorem step_of_running {s : State} (h : s.status = .running) : step s = handleEvent s.nextEvent s.popEvent := by
  simp [step, schedulerStep, (ended_eq_false s).2 h]

/-- A step leaves an ended run alone; in a running one it counts both timers down, uses up a gated instruction event, or
performs a cycle with the event taken off (R105 to R109). -/
theorem step_cases {s t : State} (h : step s = .next t) :
    (s.status ≠ .running ∧ t = s) ∨
    (s.status = .running ∧
      ((s.nextEvent = .timer ∧ t = { s.popEvent with dt := countDown s.dt, st := countDown s.st }) ∨
       (s.nextEvent = .instr ∧ s.dt ≠ 0 ∧ t = s.popEvent) ∨
       (s.nextEvent = .instr ∧ s.dt = 0 ∧ cycle s.popEvent = .next t))) := by
  by_cases hs : s.status = .running
  · refine .inr ⟨hs, ?_⟩
    rw [step_of_running hs] at h
    cases he : s.nextEvent with
    | timer =>
      rw [he, handleEvent_timer (s := s.popEvent) hs] at h
      cases h
      exact .inl ⟨rfl, rfl⟩
    | instr =>
      rw [he, handleEvent_instr (s := s.popEvent) hs] at h
      by_cases hd : s.dt = 0
      · exact .inr (.inr ⟨rfl, hd, (if_pos hd).symm.trans h⟩)
      · cases (if_neg hd).symm.trans h
        exact .inr (.inl ⟨rfl, hd, rfl⟩)
  · cases (step_of_not_running hs).symm.trans h
    exact .inl ⟨hs, rfl⟩

/-- A fault or an advance of PC writes nothing of `neverWritten`, so a cycle writes none of it either. -/
theorem cycle_keeps {c : Component} (hc : c ∈ neverWritten) {s t : State} (h : cycle s = .next t) : Keeps s t c := by
  have hpc : c ∉ [Component.pc] := not_mem_mayWrite hc (.jp 0)
  have hstatus : c ∉ [Component.status] := not_mem_mayWrite hc .halt
  have hadvance := (changesOnly_setPc s (s.pc + 2)).keeps hpc
  rcases cycle_cases h with ⟨e, _, rfl⟩ | ⟨_, _, w, _, ⟨why, _, rfl⟩ | ⟨i, _, hx⟩⟩
  · exact (changesOnly_raise s e).keeps hstatus
  · exact hadvance.trans ((changesOnly_raise _ _).keeps hstatus)
  · exact hadvance.trans (exec_keeps hc hx)

theorem cycle_config {s t : State} (h : cycle s = .next t) : t.config = s.config :=
  cycle_keeps (c := .config) (by decide) h

theorem cycle_dt {s t : State} (h : cycle s = .next t) : t.dt = s.dt := cycle_keeps (c := .dt) (by decide) h

theorem cycle_st {s t : State} (h : cycle s = .next t) : t.st = s.st := cycle_keeps (c := .st) (by decide) h

theorem cycle_mem {s t : State} (h : cycle s = .next t) : t.mem = s.mem := by
  rcases cycle_cases h with ⟨_, _, rfl⟩ | ⟨_, _, _, _, ⟨_, _, rfl⟩ | ⟨_, _, hx⟩⟩
  · rfl
  · rfl
  · exact (exec_mem hx).trans (s.setPc_mem _)

theorem step_mem {s t : State} (h : step s = .next t) : t.mem = s.mem := by
  rcases step_cases h with ⟨_, rfl⟩ | ⟨_, ⟨_, rfl⟩ | ⟨_, _, rfl⟩ | ⟨_, _, hc⟩⟩
  · rfl
  · rfl
  · rfl
  · exact (cycle_mem hc).trans s.popEvent_mem

theorem step_config {s t : State} (h : step s = .next t) : t.config = s.config := by
  rcases step_cases h with ⟨_, rfl⟩ | ⟨_, ⟨_, rfl⟩ | ⟨_, _, rfl⟩ | ⟨_, _, hc⟩⟩
  · rfl
  · rfl
  · rfl
  · exact (cycle_config hc).trans s.popEvent_config

/-- A byte is read from the memory list and the configuration alone. -/
theorem byteAt_congr {s t : State} (hm : t.mem = s.mem) (hc : t.config = s.config) (a : Nat) :
    t.byteAt a = s.byteAt a := by rw [State.byteAt, hm, hc, ← State.byteAt]

/-- Settles O52: no update a step makes writes the memory list or the configuration, and a byte is read from these two. -/
theorem stepKeepsMemoryAndConfiguration : Obligations.StepKeepsMemoryAndConfiguration :=
  fun _ _ h => ⟨step_mem h, step_config h, byteAt_congr (step_mem h) (step_config h)⟩

/-- Settles O53: of the ways a step can go, only the timer event's writes DT or ST. -/
theorem onlyTimerEventsChangeTheTimers : Obligations.OnlyTimerEventsChangeTheTimers := by
  intro s t h hchange
  have hkept : ¬ (t.dt = s.dt ∧ t.st = s.st) := fun ⟨hd, hst⟩ => hchange.elim (· hd) (· hst)
  rcases step_cases h with ⟨_, rfl⟩ | ⟨hs, ⟨he, _⟩ | ⟨_, _, rfl⟩ | ⟨_, _, hc⟩⟩
  · exact absurd ⟨rfl, rfl⟩ hkept
  · exact ⟨hs, he⟩
  · exact absurd ⟨rfl, rfl⟩ hkept
  · exact absurd ⟨(cycle_dt hc).trans s.popEvent_dt, (cycle_st hc).trans s.popEvent_st⟩ hkept

end Sys2Proof.Machine

/-! PROOFS of the family 10_state.md, second part: every step keeps `MachineInv` (R29, R30, R42, R124, R213). I, PC and the
stack are each written by few instructions; for the others their bound is `exec_changesOnly`. -/

namespace Sys2Proof.Machine

theorem toNat_zextAddr (nnn : AddrField) : (zextAddr nnn).toNat = nnn.toNat := by
  have := nnn.isLt
  simp only [zextAddr, BitVec.toNat_setWidth]
  omega

theorem toNat_zextAddr_le (nnn : AddrField) : (zextAddr nnn).toNat ≤ 0xFFF := by
  have := nnn.isLt
  rw [toNat_zextAddr]
  omega

/-- The target of Bnnn is the exact sum: it wraps neither at 0xFFF nor at 16 bits (R142). -/
theorem toNat_zextAddr_add_byte (nnn : AddrField) (b : Byte) :
    (zextAddr nnn + b.setWidth 16).toNat = nnn.toNat + b.toNat := by
  have := nnn.isLt
  have := b.isLt
  rw [BitVec.toNat_add, toNat_zextAddr, BitVec.toNat_setWidth]
  omega

/-- Advancing a PC that R29 bounds does not wrap. -/
theorem toNat_add_two (a : Word) (h : a.toNat ≤ 0x10FE) : (a + 2).toNat = a.toNat + 2 := by
  rw [BitVec.toNat_add, show (2 : Word).toNat = 2 from rfl]
  omega

theorem skipIf_pc_le {s : State} (h : s.pc.toNat ≤ 0x1000) (b : Bool) : (s.skipIf b).pc.toNat ≤ 0x10FE := by
  rcases skipIf_cases s b with ⟨_, e⟩ | ⟨_, e⟩ <;> rw [e]
  · rw [State.setPc_pc, toNat_add_two _ (by omega)]
    omega
  · omega

/-- Only Annn writes I, and it writes 12 bits (R30). -/
theorem exec_index_le {i : Instr} {s t : State} (h : exec i s = .next t) (hs : s.i.toNat ≤ 0xFFF) :
    t.i.toNat ≤ 0xFFF := by
  cases i with
  | ldI nnn => cases h; exact toNat_zextAddr_le nnn
  | _ => rwa [show t.i = s.i from (exec_changesOnly h).keeps (c := .i) (by simp [mayWrite])]

/-- The largest PC an instruction leaves is Bnnn's 0xFFF + 0xFF (R29). -/
theorem exec_pc_le {i : Instr} {s t : State} (h : exec i s = .next t) (hs : s.pc.toNat ≤ 0x1000)
    (hret : ∀ a ∈ s.stack, a.toNat ≤ 0x1000) : t.pc.toNat ≤ 0x10FE := by
  cases i with
  | ret =>
    rcases execRet_cases s with ⟨_, e⟩ | ⟨rest, a, hstack, e⟩ <;> cases e.symm.trans h
    · exact hs.trans (by decide)
    · exact (hret a (by simp [hstack])).trans (by decide)
  | call nnn =>
    rcases execCall_cases nnn s with ⟨_, e⟩ | ⟨_, e⟩ <;> cases e.symm.trans h
    · exact hs.trans (by decide)
    · exact (toNat_zextAddr_le nnn).trans (by decide)
  | jp nnn => cases h; exact (toNat_zextAddr_le nnn).trans (by decide)
  | jpV0 nnn =>
    cases h
    have := nnn.isLt
    have := (s.reg 0).isLt
    rw [State.setPc_pc, toNat_zextAddr_add_byte]
    omega
  | seImm | sneImm | seReg | sneReg => cases h; exact skipIf_pc_le hs _
  | _ =>
    rw [show t.pc = s.pc from (exec_changesOnly h).keeps (c := .pc) (by simp [mayWrite])]
    omega

/-- An instruction keeps the stack, pops its last entry (RET), or pushes PC where there is room (CALL) (R32, R213). -/
theorem exec_stack_cases {i : Instr} {s t : State} (h : exec i s = .next t) :
    t.stack = s.stack ∨ (∃ a, s.stack = t.stack ++ [a]) ∨
      (t.stack = s.stack ++ [s.pc] ∧ s.config.stackLimit ≠ some s.stack.length) := by
  cases i with
  | ret =>
    rcases execRet_cases s with ⟨_, e⟩ | ⟨rest, a, hstack, e⟩ <;> cases e.symm.trans h
    · exact .inl rfl
    · exact .inr (.inl ⟨a, hstack⟩)
  | call nnn =>
    rcases execCall_cases nnn s with ⟨_, e⟩ | ⟨hroom, e⟩ <;> cases e.symm.trans h
    · exact .inl rfl
    · exact .inr (.inr ⟨rfl, hroom⟩)
  | _ => exact .inl ((exec_changesOnly h).keeps (c := .stack) (by simp [mayWrite]))

/-- The invariant reads memory, the configuration, I, PC and the stack only. -/
theorem MachineInv.congr {s t : State} (hinv : MachineInv s) (hm : t.mem = s.mem) (hc : t.config = s.config)
    (hi : t.i = s.i) (hpc : t.pc = s.pc) (hst : t.stack = s.stack) : MachineInv t where
  memory := by rw [hm, hc]; exact hinv.memory
  font a ha := by rw [byteAt_congr hm hc, hinv.font a ha, hc]
  index := by rw [hi]; exact hinv.index
  pc := by rw [hpc]; exact hinv.pc
  returns := by rw [hst]; exact hinv.returns
  depth := by rw [hc, hst]; exact hinv.depth

theorem MachineInv.raise {s : State} (hinv : MachineInv s) (e : Fault) : MachineInv (s.raise e) :=
  hinv.congr rfl rfl rfl rfl rfl

theorem MachineInv.popEvent {s : State} (hinv : MachineInv s) : MachineInv s.popEvent :=
  hinv.congr rfl rfl rfl rfl rfl

theorem MachineInv.setPc {s : State} (hinv : MachineInv s) {a : Word} (ha : a.toNat ≤ 0x10FE) :
    MachineInv (s.setPc a) where
  memory := hinv.memory
  font := hinv.font
  index := hinv.index
  pc := ha
  returns := hinv.returns
  depth := hinv.depth

/-- On entry to an instruction PC is even and at most 0x1000, which makes what CALL pushes a good return address (R29). -/
theorem exec_keeps_inv {i : Instr} {s t : State} (hinv : MachineInv s) (heven : s.pc.toNat % 2 = 0)
    (hpc : s.pc.toNat ≤ 0x1000) (h : exec i s = .next t) : MachineInv t := by
  have hm : t.mem = s.mem := exec_mem h
  have hc : t.config = s.config := exec_keeps (c := .config) (by decide) h
  have hstack := exec_stack_cases h
  refine
    { memory := by rw [hm, hc]; exact hinv.memory
      font := fun a ha => by rw [byteAt_congr hm hc, hinv.font a ha, hc]
      index := exec_index_le h hinv.index
      pc := exec_pc_le h hpc fun a ha => (hinv.returns a ha).2
      returns := fun a ha => ?_
      depth := fun k hk => ?_ }
  · rcases hstack with e | ⟨b, e⟩ | ⟨e, _⟩
    · exact hinv.returns a (e ▸ ha)
    · exact hinv.returns a (by simp [e, ha])
    · rw [e, List.mem_append, List.mem_singleton] at ha
      rcases ha with ha | rfl
      · exact hinv.returns a ha
      · exact ⟨heven, hpc⟩
  · rw [hc] at hk
    have hdepth := hinv.depth k hk
    rcases hstack with e | ⟨b, e⟩ | ⟨e, hroom⟩
    · rwa [e]
    · rw [e, List.length_append] at hdepth
      omega
    · have hne : k ≠ s.stack.length := fun hkl => hroom (hkl ▸ hk)
      rw [e, List.length_append, List.length_singleton]
      omega

theorem cycle_keeps_inv {s t : State} (hinv : MachineInv s) (h : cycle s = .next t) : MachineInv t := by
  rcases cycle_cases h with ⟨e, _, rfl⟩ | ⟨heven, hle, w, _, hrest⟩
  · exact hinv.raise e
  · have hpc : (s.pc + 2).toNat = s.pc.toNat + 2 := toNat_add_two _ (by omega)
    have hadvanced : MachineInv (s.setPc (s.pc + 2)) := hinv.setPc (by omega)
    rcases hrest with ⟨why, _, rfl⟩ | ⟨i, _, hx⟩
    · exact hadvanced.raise _
    · exact exec_keeps_inv hadvanced (by rw [State.setPc_pc]; omega) (by rw [State.setPc_pc]; omega) hx

/-- Settles O54: along the ways a step can go; an instruction executes with PC even and at most 0x1000. -/
theorem stepKeepsTheInvariant : Obligations.StepKeepsTheInvariant := by
  intro s t hinv h
  rcases step_cases h with ⟨_, rfl⟩ | ⟨_, ⟨_, rfl⟩ | ⟨_, _, rfl⟩ | ⟨_, _, hc⟩⟩
  · exact hinv
  · exact hinv.congr rfl rfl rfl rfl rfl
  · exact hinv.popEvent
  · exact cycle_keeps_inv hinv.popEvent hc

end Sys2Proof.Machine

/-! PROOFS of the family 20_memory.md: the byte order of the fetch (R51). -/

namespace Sys2Proof.Machine

/-- The first byte is bits 15..8 and the second, being less than 256, is added to them without a carry (R12, R51). -/
theorem toNat_wordOfBytes (first second : Byte) :
    (wordOfBytes first second).toNat = 256 * first.toNat + second.toNat := by
  rw [wordOfBytes, BitVec.toNat_append, ← Nat.shiftLeft_add_eq_or_of_lt second.isLt, Nat.shiftLeft_eq, Nat.mul_comm]

/-- At an even PC of at most 0xFFE the fetch cannot fault (R102). -/
theorem fetch_of_even_of_le {s : State} (heven : s.pc.toNat % 2 = 0) (hle : s.pc.toNat ≤ 0xFFE) :
    fetch s = .ok (wordOfBytes (s.byteAt s.pc.toNat) (s.byteAt (s.pc.toNat + 1))) := by
  rcases fetch_cases s with ⟨hodd, _⟩ | ⟨_, habove, _⟩ | ⟨_, _, e⟩
  · exact absurd heven hodd
  · omega
  · exact e

/-- Settles O12: an aligned fetch in range gives the word of its two bytes, whose value is that of a two-digit number in
base 256. -/
theorem fetchIsBigEndian : Obligations.FetchIsBigEndian :=
  fun _ heven hle => ⟨_, fetch_of_even_of_le heven hle, toNat_wordOfBytes _ _⟩

end Sys2Proof.Machine

/-! PROOFS of the family 30_encoding.md. A word is the encoding of its own fields, so what `decode` reads off them determines
the word; and a word that spells a row of the opcode map agrees with the row's pattern on the fields `decode` looks at. -/

namespace Sys2Proof

/-! ### The fields as numbers, and a word from its fields (R71, R73) -/

/-- Settles O2: shifts and masks are quotients and remainders, and the wide fields are read in base 16. -/
theorem fieldsOfEveryWord : Obligations.FieldsOfEveryWord := by
  intro w
  have hw := w.isLt
  have hmask4 : ∀ a : Nat, a &&& 0xF = a % 16 := (Nat.and_two_pow_sub_one_eq_mod · 4)
  have hmask8 : ∀ a : Nat, a &&& 0xFF = a % 0x100 := (Nat.and_two_pow_sub_one_eq_mod · 8)
  have hmask12 : ∀ a : Nat, a &&& 0xFFF = a % 0x1000 := (Nat.and_two_pow_sub_one_eq_mod · 12)
  simp only [toNat_fieldOp, val_fieldX, val_fieldY, toNat_fieldN, toNat_fieldNnn, toNat_fieldKk, hmask4, hmask8, hmask12,
    Nat.shiftRight_eq_div_pow, true_and]
  omega

section OfFields
variable {w : Word} {op : BitVec 4} (hop : (fieldOp w).toNat = op.toNat)
include hop

theorem encodeAddr_fields : encodeAddr op (fieldNnn w) = w := by
  apply BitVec.eq_of_toNat_eq
  rw [toNat_encodeAddr, ← hop, toNat_fieldOp, toNat_fieldNnn]
  omega

theorem encodeRegImm_fields : encodeRegImm op (fieldX w) (fieldKk w) = w := by
  apply BitVec.eq_of_toNat_eq
  rw [toNat_encodeRegImm, ← hop, toNat_fieldOp, val_fieldX, toNat_fieldKk]
  omega

theorem encodeRegReg_fields {f : BitVec 4} (hn : (fieldN w).toNat = f.toNat) :
    encodeRegReg op (fieldX w) (fieldY w) f = w := by
  apply BitVec.eq_of_toNat_eq
  rw [toNat_encodeRegReg, ← hop, ← hn, toNat_fieldOp, val_fieldX, val_fieldY, toNat_fieldN]
  omega

end OfFields

/-! ### Decoding an encoding -/

/-- Settles O3: each format puts its operands in the fields the decoder reads them from (`Laws/Encoding`). -/
theorem decodeOfEncodeIsIdentity : Obligations.DecodeOfEncodeIsIdentity := by
  intro i
  cases i with
  | halt | cls | ret => rfl
  | jp | call | ldI | jpV0 => simp [encode, decode]
  | seImm | sneImm | ldImm | addImm | rnd => simp [encode, decode]
  | seReg | sneReg | drw => simp [encode, decode]
  | ldReg | orReg | andReg | xorReg | addReg | sub | shr | subn | shl => simp [encode, decode, decodeOp8]

/-! ### What a decoding says of its word -/

/-- The words illegal for each reason: R80's table. -/
def IllegalWord.covers : IllegalWord → Word → Prop
  | .op0NotListed, w => (fieldOp w).toNat = 0 ∧ w ≠ 0x0000 ∧ w ≠ 0x00E0 ∧ w ≠ 0x00EE
  | .op5LowNibble, w => (fieldOp w).toNat = 5 ∧ (fieldN w).toNat ≠ 0
  | .op8MinorOpcode, w => (fieldOp w).toNat = 8 ∧ 8 ≤ (fieldN w).toNat ∧ (fieldN w).toNat ≠ 14
  | .op9LowNibble, w => (fieldOp w).toNat = 9 ∧ (fieldN w).toNat ≠ 0
  | .opE, w => 0xE000 ≤ w.toNat ∧ w.toNat ≤ 0xEFFF
  | .opF, w => 0xF000 ≤ w.toNat

/-- An instruction is right of the word that encodes it, a failure of the words of its range. -/
def Decoded.RightOf (w : Word) : Decoded → Prop
  | .instr i => encode i = w
  | .failure why => why.covers w

theorem fieldOp_toNat_eq_14_iff (w : Word) : (fieldOp w).toNat = 14 ↔ 0xE000 ≤ w.toNat ∧ w.toNat ≤ 0xEFFF := by
  rw [toNat_fieldOp]
  omega

theorem fieldOp_toNat_eq_15_iff (w : Word) : (fieldOp w).toNat = 15 ↔ 0xF000 ≤ w.toNat := by
  have := w.isLt
  rw [toNat_fieldOp]
  omega

theorem decodeOp0_rightOf {w : Word} (hop : (fieldOp w).toNat = 0) : (decodeOp0 w).RightOf w := by
  unfold decodeOp0
  split_ifs with h0 hE0 hEE
  · exact h0.symm
  · exact hE0.symm
  · exact hEE.symm
  · exact ⟨hop, h0, hE0, hEE⟩

theorem decodeOp8_rightOf {w : Word} (hop : (fieldOp w).toNat = 8) : (decodeOp8 w).RightOf w := by
  unfold decodeOp8
  split
  case h_10 =>
    simp only [imp_false] at *
    exact ⟨hop, by omega, by omega⟩
  all_goals exact encodeRegReg_fields hop ‹_›

/-- The two major opcodes that require the low nibble to be 0 (5xy0, 9xy0). -/
theorem rightOf_ite_fieldN {w : Word} {i : Instr} {why : IllegalWord} (hi : (fieldN w).toNat = 0 → encode i = w)
    (hwhy : (fieldN w).toNat ≠ 0 → why.covers w) :
    (if fieldN w = 0 then Decoded.instr i else .failure why).RightOf w := by
  split_ifs with hn
  · exact hi (congrArg BitVec.toNat hn)
  · exact hwhy fun h => hn (BitVec.eq_of_toNat_eq h)

/-- Each major opcode is of one format (R73), and a word is rebuilt from the fields of its format. -/
theorem decode_rightOf (w : Word) : (decode w).RightOf w := by
  have hlt := (fieldOp w).isLt
  unfold decode
  split
  case h_1 hop => exact decodeOp0_rightOf hop
  case h_2 hop | h_3 hop | h_11 hop | h_12 hop => exact encodeAddr_fields hop
  case h_4 hop | h_5 hop | h_7 hop | h_8 hop | h_13 hop => exact encodeRegImm_fields hop
  case h_6 hop | h_10 hop => exact rightOf_ite_fieldN (encodeRegReg_fields hop ·) fun hn => ⟨hop, hn⟩
  case h_9 hop => exact decodeOp8_rightOf hop
  case h_14 hop => exact encodeRegReg_fields hop rfl
  case h_15 hop => exact (fieldOp_toNat_eq_14_iff w).1 hop
  case h_16 =>
    simp only [imp_false] at *
    exact (fieldOp_toNat_eq_15_iff w).1 (by omega)

/-- Settles O4: the decoder's answer is right of its word. -/
theorem encodeOfDecodeIsIdentity : Obligations.EncodeOfDecodeIsIdentity := by
  intro w i h
  have hright := decode_rightOf w
  rwa [h] at hright

/-! ### The 0x8 family (R78) -/

theorem decode_of_op8 {w : Word} (hop : (fieldOp w).toNat = 8) : decode w = decodeOp8 w := by
  simp [decode, hop]

theorem decodeOp8_of_no_row {w : Word} (h8 : 8 ≤ (fieldN w).toNat) (hE : (fieldN w).toNat ≠ 14) :
    decodeOp8 w = .failure .op8MinorOpcode := by
  unfold decodeOp8
  split
  case h_10 => rfl
  all_goals omega

/-- Settles O6: with major opcode 8 the decoder matches on the low nibble and on nothing else. -/
theorem lowNibbleSelectsInTheEightFamily : Obligations.LowNibbleSelectsInTheEightFamily := by
  intro w hop
  rw [decode_of_op8 hop]
  refine ⟨?_, ?_, ?_, ?_, ?_, ?_, ?_, ?_, ?_, fun hn => decodeOp8_of_no_row (by omega) (by omega)⟩
  all_goals
    intro hn
    simp only [decodeOp8, hn]

/-! ### The illegal words (R79, R80) -/

theorem decode_eq_failure_iff (w : Word) (why : IllegalWord) : decode w = .failure why ↔ why.covers w := by
  constructor
  · intro h
    have hright := decode_rightOf w
    rwa [h] at hright
  · intro h
    cases why with
    | op0NotListed =>
      obtain ⟨hop, h0, hE0, hEE⟩ := h
      simp only [decode, hop, decodeOp0, h0, hE0, hEE, if_false]
    | op5LowNibble | op9LowNibble =>
      obtain ⟨hop, hn⟩ := h
      have hn0 : fieldN w ≠ 0 := fun e => hn (congrArg BitVec.toNat e)
      simp only [decode, hop, hn0, if_false]
    | op8MinorOpcode =>
      obtain ⟨hop, h8, hE⟩ := h
      rw [decode_of_op8 hop, decodeOp8_of_no_row h8 hE]
    | opE => simp only [decode, (fieldOp_toNat_eq_14_iff w).2 h]
    | opF => simp only [decode, (fieldOp_toNat_eq_15_iff w).2 h]

/-- Settles O7: the ranges are the six cases of `IllegalWord.covers`. -/
theorem illegalWordsAreTheListedRanges : Obligations.IllegalWordsAreTheListedRanges :=
  fun w => ⟨decode_eq_failure_iff w .op0NotListed, decode_eq_failure_iff w .op5LowNibble,
    decode_eq_failure_iff w .op8MinorOpcode, decode_eq_failure_iff w .op9LowNibble,
    decode_eq_failure_iff w .opE, decode_eq_failure_iff w .opF⟩

/-! ### The opcode map (R75, R77) -/

theorem OpcodeRow.number_injective : ∀ r ∈ opcodeTable, ∀ r' ∈ opcodeTable, r.number = r'.number → r = r' := by
  decide

/-- The word of an instruction spells its row, by the instruction's own law. -/
theorem encodesItsRow (i : Instr) : Laws.EncodesItsRow.Statement i := by
  cases i with
  | halt => exact Laws.EncodesItsRow.halt
  | cls => exact Laws.EncodesItsRow.cls
  | ret => exact Laws.EncodesItsRow.ret
  | jp nnn => exact Laws.EncodesItsRow.jp nnn
  | call nnn => exact Laws.EncodesItsRow.call nnn
  | seImm x kk => exact Laws.EncodesItsRow.seImm x kk
  | sneImm x kk => exact Laws.EncodesItsRow.sneImm x kk
  | seReg x y => exact Laws.EncodesItsRow.seReg x y
  | ldImm x kk => exact Laws.EncodesItsRow.ldImm x kk
  | addImm x kk => exact Laws.EncodesItsRow.addImm x kk
  | ldReg x y => exact Laws.EncodesItsRow.ldReg x y
  | orReg x y => exact Laws.EncodesItsRow.orReg x y
  | andReg x y => exact Laws.EncodesItsRow.andReg x y
  | xorReg x y => exact Laws.EncodesItsRow.xorReg x y
  | addReg x y => exact Laws.EncodesItsRow.addReg x y
  | sub x y => exact Laws.EncodesItsRow.sub x y
  | shr x y => exact Laws.EncodesItsRow.shr x y
  | subn x y => exact Laws.EncodesItsRow.subn x y
  | shl x y => exact Laws.EncodesItsRow.shl x y
  | sneReg x y => exact Laws.EncodesItsRow.sneReg x y
  | ldI nnn => exact Laws.EncodesItsRow.ldI nnn
  | jpV0 nnn => exact Laws.EncodesItsRow.jpV0 nnn
  | rnd x kk => exact Laws.EncodesItsRow.rnd x kk
  | drw x y n => exact Laws.EncodesItsRow.drw x y n

/-- A word decoded as an instruction spells the row of that instruction's number. -/
theorem spells_of_decode {w : Word} {i : Instr} (h : decode w = .instr i) :
    ∃ row ∈ opcodeTable, row.number = i.rowNumber ∧ row.spells w = true := by
  have hrow := encodesItsRow i
  rwa [Laws.EncodesItsRow.Statement, encodeOfDecodeIsIdentity w i h] at hrow

section Spells
variable {row : OpcodeRow} {w : Word} (hspells : row.spells w = true)
include hspells

theorem OpcodeRow.and_mask_of_spells : w &&& row.mask = row.pattern := by
  simpa [OpcodeRow.spells] using hspells

theorem OpcodeRow.eq_of_spells (hmask : row.mask = 0xFFFF) : w = row.pattern := by
  have hones : w &&& 0xFFFF = w := BitVec.and_allOnes
  rw [← row.and_mask_of_spells hspells, hmask, hones]

theorem OpcodeRow.fieldOp_of_spells (hmask : fieldOp row.mask = 0xF) :
    (fieldOp w).toNat = row.pattern.toNat / 0x1000 := by
  have hand : fieldOp (w &&& row.mask) = fieldOp w &&& fieldOp row.mask := BitVec.extractLsb'_and
  have hones : fieldOp w &&& 0xF = fieldOp w := BitVec.and_allOnes
  rw [← toNat_fieldOp, ← row.and_mask_of_spells hspells, hand, hmask, hones]

theorem OpcodeRow.fieldN_of_spells (hmask : row.mask.toNat % 16 = 15) :
    (fieldN w).toNat = row.pattern.toNat % 16 := by
  have hmaskN : fieldN row.mask = 0xF := BitVec.eq_of_toNat_eq ((toNat_fieldN _).trans hmask)
  have hand : fieldN (w &&& row.mask) = fieldN w &&& fieldN row.mask := BitVec.extractLsb'_and
  have hones : fieldN w &&& 0xF = fieldN w := BitVec.and_allOnes
  rw [← toNat_fieldN, ← row.and_mask_of_spells hspells, hand, hmaskN, hones]

end Spells

theorem fieldOp_mask : ∀ row ∈ opcodeTable, fieldOp row.mask = 0xF := by
  decide

/-- Each row fixes what the decoder looks at: the whole word, the major opcode, or that and the low nibble. -/
theorem decode_of_spells {row : OpcodeRow} (hrow : row ∈ opcodeTable) {w : Word} (hspells : row.spells w = true) :
    ∃ i, decode w = .instr i ∧ i.rowNumber = row.number := by
  have hword := row.eq_of_spells hspells
  have hop := row.fieldOp_of_spells hspells (fieldOp_mask row hrow)
  have hn := row.fieldN_of_spells hspells
  fin_cases hrow
  · exact hword rfl ▸ ⟨.halt, rfl, rfl⟩
  · exact hword rfl ▸ ⟨.cls, rfl, rfl⟩
  · exact hword rfl ▸ ⟨.ret, rfl, rfl⟩
  all_goals simp [decode, decodeOp8, hop, hn, Instr.rowNumber, ← BitVec.toNat_inj]

theorem spells_iff_decode (w : Word) {row : OpcodeRow} (hrow : row ∈ opcodeTable) :
    row.spells w = true ↔ ∃ i, decode w = .instr i ∧ i.rowNumber = row.number := by
  constructor
  · exact decode_of_spells hrow
  · rintro ⟨i, hdecode, hnumber⟩
    obtain ⟨row', hrow', hnumber', hspells⟩ := spells_of_decode hdecode
    rwa [OpcodeRow.number_injective row hrow row' hrow' (hnumber.symm.trans hnumber'.symm)]

theorem legalWord_iff_decode (w : Word) : legalWord w = true ↔ ∃ i, decode w = .instr i := by
  rw [legalWord, List.any_eq_true]
  constructor
  · rintro ⟨row, hrow, hspells⟩
    obtain ⟨i, hdecode, _⟩ := decode_of_spells hrow hspells
    exact ⟨i, hdecode⟩
  · rintro ⟨i, hdecode⟩
    obtain ⟨row, hrow, _, hspells⟩ := spells_of_decode hdecode
    exact ⟨row, hrow, hspells⟩

theorem legalWord_eq_false_iff_decode (w : Word) : legalWord w = false ↔ ∃ why, decode w = .failure why := by
  rw [← Bool.not_eq_true, legalWord_iff_decode]
  cases decode w <;> simp

/-- No word spells two rows: both would have the number of the one instruction it decodes to. -/
theorem row_unique_of_spells {w : Word} {r r' : OpcodeRow} (hr : r ∈ opcodeTable) (hr' : r' ∈ opcodeTable)
    (h : r.spells w = true) (h' : r'.spells w = true) : r = r' := by
  obtain ⟨i, hi, hnumber⟩ := decode_of_spells hr h
  obtain ⟨i', hi', hnumber'⟩ := decode_of_spells hr' h'
  cases hi.symm.trans hi'
  exact OpcodeRow.number_injective r hr r' hr' (hnumber.symm.trans hnumber')

/-- Settles O5: decoding, encoding and the map agree by the rows' numbers, which are all different. -/
theorem classificationAgreesWithTheOpcodeMap : Obligations.ClassificationAgreesWithTheOpcodeMap :=
  ⟨fun w _ hrow => spells_iff_decode w hrow, legalWord_eq_false_iff_decode,
    fun _ _ hr _ hr' => row_unique_of_spells hr hr'⟩

end Sys2Proof

/-! PROOFS of the family 40_execution_cycle.md: what one event does, the pause while DT is not 0, runs and steps over a
sequence of events, the nominal schedule, and the placed word. -/

namespace Sys2Proof.Machine

/-! ### The frame of the Scheduler's updates -/

theorem changesOnly_withEvents (s : State) (es : List Event) : ChangesOnly [.events] s (s.withEvents es) := by
  intro c hc
  cases c with
  | events => simp at hc
  | memory => exact fun _ => rfl
  | _ => rfl

theorem changesOnly_popEvent (s : State) : ChangesOnly [.events] s s.popEvent := changesOnly_withEvents s _

/-- Any change of the two timers alone. -/
theorem changesOnly_timers (s : State) (dt st : Byte) : ChangesOnly [.dt, .st] s { s with dt := dt, st := st } := by
  intro c hc
  cases c with
  | dt | st => simp at hc
  | memory => exact fun _ => rfl
  | _ => rfl

theorem running_of_timers_changed {s t : State} (hframe : ChangesOnly [.dt, .st] s t) (h : s.status = .running) :
    t.status = .running := by
  rw [← h]
  exact hframe.keeps (c := .status) (by simp)

/-- Counting down is the truncated subtraction of 1 (R220). -/
theorem toNat_countDown (b : Byte) : (countDown b).toNat = b.toNat - 1 := by
  unfold countDown
  split_ifs with h
  · simp [h]
  · bv_omega

/-! ### What one event does (R106, R107, R109) -/

theorem handleEvent_of_not_running {s : State} (h : s.status ≠ .running) (e : Event) : handleEvent e s = .next s := by
  have he : s.ended = true := by simpa using mt (ended_eq_false s).1 h
  simp [handleEvent, he]

theorem handleEvent_instr_of_dt_eq_zero {s : State} (h : s.status = .running) (hdt : s.dt = 0) :
    handleEvent .instr s = cycle s := (handleEvent_instr h).trans (if_pos hdt)

theorem handleEvent_instr_of_dt_ne_zero {s : State} (h : s.status = .running) (hdt : s.dt ≠ 0) :
    handleEvent .instr s = .next s := (handleEvent_instr h).trans (if_neg hdt)

theorem handleEvent_timer_spec {s : State} (h : s.status = .running) :
    ∃ t, handleEvent .timer s = .next t ∧ t.dt.toNat = s.dt.toNat - 1 ∧ t.st.toNat = s.st.toNat - 1 ∧
      ChangesOnly [.dt, .st] s t :=
  ⟨_, handleEvent_timer h, toNat_countDown _, toNat_countDown _, changesOnly_timers s _ _⟩

section StepOfRunning
variable {s : State} (h : s.status = .running)
include h

theorem step_of_instr_of_dt_eq_zero (he : s.nextEvent = .instr) (hdt : s.dt = 0) : step s = cycle s.popEvent := by
  rw [step_of_running h, he]
  exact handleEvent_instr_of_dt_eq_zero (s := s.popEvent) h hdt

theorem step_of_instr_of_dt_ne_zero (he : s.nextEvent = .instr) (hdt : s.dt ≠ 0) : step s = .next s.popEvent := by
  rw [step_of_running h, he]
  exact handleEvent_instr_of_dt_ne_zero (s := s.popEvent) h hdt

end StepOfRunning

/-- Settles O57: the next event is the head of the coming ones, and an instruction event when there is none. -/
theorem stepHandlesTheNextEvent : Obligations.StepHandlesTheNextEvent := by
  intro s h
  refine ⟨step_of_running h, fun e es hes => ?_, fun hes => ?_, changesOnly_popEvent s⟩
  · simp [State.nextEvent, hes]
  · simp [State.nextEvent, hes]

/-- Settles O15: by DT, for the event and for the step that takes it. -/
theorem delayTimerGatesAnInstructionEvent : Obligations.DelayTimerGatesAnInstructionEvent :=
  fun s h => ⟨handleEvent_instr_of_dt_eq_zero h, handleEvent_instr_of_dt_ne_zero h, step_of_instr_of_dt_eq_zero h,
    fun he hdt => ⟨step_of_instr_of_dt_ne_zero h he hdt, s.popEvent_events, changesOnly_popEvent s⟩⟩

/-- Settles O16: the step is the timer event of the state with the event taken off. -/
theorem timerEventCountsBothTimersDown : Obligations.TimerEventCountsBothTimersDown := by
  refine fun s h => ⟨handleEvent_timer_spec h, fun he => ?_⟩
  obtain ⟨t, hevent, hdt, hst, hframe⟩ := handleEvent_timer_spec (s := s.popEvent) h
  refine ⟨t, by rw [step_of_running h, he, hevent], hdt, hst, hframe.keeps (c := .events) (by simp), ?_⟩
  exact ((changesOnly_popEvent s).trans hframe).mono (by simp)

/-! ### Fetching and executing (R100 to R103) -/

/-- Settles O11: the open event is a cycle, whose fetch cannot fault at an even PC of at most 0xFFE. -/
theorem stepRunsTheDecodedInstruction : Obligations.StepRunsTheDecodedInstruction := by
  intro s i h he hdt heven hle hdecode
  rw [step_of_instr_of_dt_eq_zero h he hdt]
  exact cycle_of_instr s.popEvent _ i (fetch_of_even_of_le (s := s.popEvent) heven hle) hdecode

theorem fetch_of_odd {s : State} (hodd : s.pc.toNat % 2 = 1) : fetch s = .error (.misalignedFetch s.pc) := by
  rcases fetch_cases s with ⟨_, e⟩ | ⟨heven, _⟩ | ⟨heven, _⟩
  · exact e
  all_goals omega

theorem fetch_of_even_of_lt {s : State} (heven : s.pc.toNat % 2 = 0) (hlt : 0xFFE < s.pc.toNat) :
    fetch s = .error (.fetchOutOfRange s.pc) := by
  rcases fetch_cases s with ⟨hodd, _⟩ | ⟨_, _, e⟩ | ⟨_, hle, _⟩
  · omega
  · exact e
  · omega

section FetchError
variable {s : State} {f : Fault} (hfetch : fetch s = .error f)
include hfetch

theorem cycle_faults_of_fetch_error :
    ∃ t, cycle s = .next t ∧ t.status = .faulted f ∧ ChangesOnly [.status] s t :=
  ⟨_, cycle_of_fetch_error s f hfetch, s.raise_status f, changesOnly_raise s f⟩

theorem step_faults_of_fetch_error (h : s.status = .running) (he : s.nextEvent = .instr) (hdt : s.dt = 0) :
    ∃ t, step s = .next t ∧ t.status = .faulted f ∧ t.events = s.events.tail ∧
      ChangesOnly [.status, .events] s t := by
  refine ⟨s.popEvent.raise f, ?_, rfl, rfl, ?_⟩
  · rw [step_of_instr_of_dt_eq_zero h he hdt]
    exact cycle_of_fetch_error s.popEvent f hfetch
  · exact ((changesOnly_popEvent s).trans (changesOnly_raise _ f)).mono (by simp)

end FetchError

/-- Settles O13: both faults are the fetch's, and whatever it raises ends the run with nothing else changed. -/
theorem fetchFaults : Obligations.FetchFaults :=
  fun _ =>
    ⟨fun hodd => cycle_faults_of_fetch_error (fetch_of_odd hodd),
      fun heven hlt => cycle_faults_of_fetch_error (fetch_of_even_of_lt heven hlt),
      fun h he hdt =>
        ⟨fun hodd => step_faults_of_fetch_error (fetch_of_odd hodd) h he hdt,
          fun heven hlt => step_faults_of_fetch_error (fetch_of_even_of_lt heven hlt) h he hdt⟩⟩

/-! ### Every event yields a state (R116) -/

theorem exec_next (i : Instr) (s : State) : ∃ t, exec i s = .next t := by
  cases i with
  | ret => rcases execRet_cases s with ⟨_, e⟩ | ⟨_, _, _, e⟩ <;> exact ⟨_, e⟩
  | call nnn => rcases execCall_cases nnn s with ⟨_, e⟩ | ⟨_, e⟩ <;> exact ⟨_, e⟩
  | drw x y n => rcases execDrw_cases x y n s with ⟨_, _, e⟩ | ⟨_, _, _, e⟩ <;> exact ⟨_, e⟩
  | _ => exact ⟨_, rfl⟩

theorem cycle_next (s : State) : ∃ t, cycle s = .next t := by
  cases hfetch : fetch s with
  | error e => exact ⟨_, cycle_of_fetch_error s e hfetch⟩
  | ok w =>
    cases hdecode : decode w with
    | failure why => exact ⟨_, cycle_of_decode_failure s w why hfetch hdecode⟩
    | instr i => exact cycle_of_instr s w i hfetch hdecode ▸ exec_next i _

theorem handleEvent_next (e : Event) (s : State) : ∃ t, handleEvent e s = .next t := by
  by_cases h : s.status = .running
  · cases e with
    | timer => exact ⟨_, handleEvent_timer h⟩
    | instr =>
      by_cases hdt : s.dt = 0
      · exact handleEvent_instr_of_dt_eq_zero h hdt ▸ cycle_next s
      · exact ⟨_, handleEvent_instr_of_dt_ne_zero h hdt⟩
  · exact ⟨_, handleEvent_of_not_running h e⟩

theorem step_next (s : State) : ∃ t, step s = .next t := by
  by_cases h : s.status = .running
  · exact step_of_running h ▸ handleEvent_next _ _
  · exact ⟨_, step_of_not_running h⟩

/-- Settles O17: every branch of an instruction answers a state, and so does what is built from instructions. -/
theorem everyEventYieldsAState : Obligations.EveryEventYieldsAState :=
  ⟨exec_next, cycle_next, handleEvent_next, step_next⟩

/-! ### The end of a run (R109) -/

theorem runEvents_of_not_running {s : State} (h : s.status ≠ .running) (es : List Event) :
    runEvents es s = .next s := by
  induction es with
  | nil => rfl
  | cons e es ih => rw [runEvents_cons_next e es s s (handleEvent_of_not_running h e), ih]

theorem runSteps_of_not_running {s : State} (h : s.status ≠ .running) (n : Nat) : runSteps n s = .next s := by
  induction n with
  | zero => rfl
  | succ n ih => rw [runSteps_succ_next n s s (step_of_not_running h), ih]

/-- Settles O18: one event or one step leaves an ended run alone, hence every run over it does. -/
theorem anEndedRunNeverChanges : Obligations.AnEndedRunNeverChanges :=
  fun _ h => ⟨step_of_not_running h, runEvents_of_not_running h⟩

/-! ### The pause while DT is not 0 (R106, R114) -/

/-- With DT not 0 an event of either kind changes the timers alone, and only a timer event does that. -/
theorem handleEvent_of_dt_ne_zero {s : State} (h : s.status = .running) (hdt : s.dt ≠ 0) (e : Event) :
    ∃ t, handleEvent e s = .next t ∧ t.dt.toNat = s.dt.toNat - timerCount [e] ∧
      t.st.toNat = s.st.toNat - timerCount [e] ∧ ChangesOnly [.dt, .st] s t := by
  cases e with
  | timer => exact handleEvent_timer_spec h
  | instr => exact ⟨s, handleEvent_instr_of_dt_ne_zero h hdt, rfl, rfl, ChangesOnly.refl _ s⟩

theorem timerCount_cons (e : Event) (es : List Event) : timerCount (e :: es) = timerCount [e] + timerCount es :=
  List.count_append (l₁ := [e])

/-- Settles O21: by induction on the events; the first leaves a running machine whose DT still exceeds the timer events to
come. -/
theorem nonzeroDelayTimerPausesExecution : Obligations.NonzeroDelayTimerPausesExecution := by
  intro es
  induction es with
  | nil => exact fun s _ _ => ⟨s, rfl, rfl, rfl, ChangesOnly.refl _ s⟩
  | cons e es ih =>
    intro s h hlt
    rw [timerCount_cons] at hlt ⊢
    have hdt : s.dt ≠ 0 := fun h0 => by simp [h0] at hlt
    obtain ⟨t, hevent, htdt, htst, htframe⟩ := handleEvent_of_dt_ne_zero h hdt e
    have ht : t.status = .running := running_of_timers_changed htframe h
    obtain ⟨u, hrun, hudt, hust, huframe⟩ := ih t ht (by omega)
    refine ⟨u, (runEvents_cons_next e es s t hevent).trans hrun, by omega, by omega, ?_⟩
    exact (htframe.trans huframe).mono (by simp)

theorem timerCount_map_range (es : Nat → Event) (n : Nat) :
    timerCount ((List.range n).map es) = Nat.count (es · = .timer) n := by
  induction n with
  | zero => rfl
  | succ n ih =>
    rw [List.range_succ, List.map_append, timerCount, List.count_append, ← timerCount, ih, Nat.count_succ]
    simp [List.count_singleton]

/-- In a fair sequence every number of timer events is passed, and the next event can be taken to be a timer event. -/
theorem FairEvents.exists_timer_after {es : Nat → Event} (hfair : FairEvents es) (k : Nat) :
    ∃ n, timerCount ((List.range n).map es) = k ∧ es n = .timer := by
  have hinf : {n | es n = .timer}.Infinite :=
    Nat.frequently_atTop_iff_infinite.1 (Filter.frequently_atTop.2 hfair.1)
  exact ⟨Nat.nth (es · = .timer) k, by rw [timerCount_map_range, Nat.count_nth_of_infinite hinf],
    Nat.nth_mem_of_infinite hinf k⟩

/-- Settles O22: after DT - 1 timer events DT is 1, with the machine still paused, and the next timer event clears it. -/
theorem fairEventsEndThePause : Obligations.FairEventsEndThePause := by
  intro es s hfair h
  by_cases hdt : s.dt = 0
  · exact ⟨0, s, rfl, hdt, ChangesOnly.refl _ s⟩
  · have hpos : 0 < s.dt.toNat := by bv_omega
    obtain ⟨n, hcount, htimer⟩ := hfair.exists_timer_after (s.dt.toNat - 1)
    obtain ⟨t, hrun, htdt, _, htframe⟩ := nonzeroDelayTimerPausesExecution ((List.range n).map es) s h (by omega)
    have ht : t.status = .running := running_of_timers_changed htframe h
    obtain ⟨u, hevent, hudt, _, huframe⟩ := handleEvent_timer_spec ht
    refine ⟨n + 1, u, ?_, BitVec.eq_of_toNat_eq (by simp; omega), (htframe.trans huframe).mono (by simp)⟩
    rw [List.range_succ, List.map_append, runEvents_append _ _ s t hrun]
    simp only [List.map_cons, List.map_nil, htimer]
    exact runEvents_cons_next .timer [] t u hevent

/-! ### Steps and the run over the coming events (R105, R108) -/

theorem handleEvent_events {e : Event} {s t : State} (h : handleEvent e s = .next t) : t.events = s.events := by
  by_cases hs : s.status = .running
  · cases e with
    | timer => cases (handleEvent_timer hs).symm.trans h; rfl
    | instr =>
      by_cases hdt : s.dt = 0
      · exact cycle_keeps (c := .events) (by decide) ((handleEvent_instr_of_dt_eq_zero hs hdt).symm.trans h)
      · cases (handleEvent_instr_of_dt_ne_zero hs hdt).symm.trans h; rfl
  · cases (handleEvent_of_not_running hs e).symm.trans h; rfl

theorem runEvents_withEvents (es : List Event) (s t : State) (evs : List Event) (h : runEvents es s = .next t) :
    runEvents es (s.withEvents evs) = .next (t.withEvents evs) := by
  induction es generalizing s with
  | nil => cases h; rfl
  | cons e es ih =>
    obtain ⟨u, hevent⟩ := handleEvent_next e s
    rw [runEvents_cons_next e es s u hevent] at h
    rw [runEvents_cons_next e es _ _ (handleEvent_withEvents e s u evs hevent), ih u h]

theorem comingEvents_congr {s t : State} (h : t.events = s.events) (n : Nat) : comingEvents t n = comingEvents s n := by
  rw [comingEvents, h, ← comingEvents]

/-- Settles O58: by induction on the steps. The step handles the event with it taken off the list, the run with the list as
it was; no event reads the list, so the two go on alike. -/
theorem stepsAreTheRunOverTheComingEvents : Obligations.StepsAreTheRunOverTheComingEvents := by
  intro n
  induction n with
  | zero => exact fun s => ⟨s, s, rfl, rfl, ChangesOnly.refl _ s, fun _ => rfl⟩
  | succ n ih =>
    intro s
    by_cases hs : s.status = .running
    · obtain ⟨s', hevent⟩ := handleEvent_next s.nextEvent s.popEvent
      have hstep : step s = .next s' := (step_of_running hs).trans hevent
      have hrunEvent : handleEvent s.nextEvent s = .next (s'.withEvents s.events) :=
        handleEvent_withEvents _ s.popEvent s' s.events hevent
      have htail : s'.events = s.popEvent.events := handleEvent_events hevent
      obtain ⟨t, u, hsteps, hrun, hframe, hleft⟩ := ih s'
      refine ⟨t, u.withEvents s.events, (runSteps_succ_next n s s' hstep).trans hsteps, ?_, ?_, fun ht => ?_⟩
      · rw [comingEvents_succ, runEvents_cons_next _ _ _ _ hrunEvent, ← comingEvents_congr htail]
        exact runEvents_withEvents _ s' u s.events hrun
      · exact ((changesOnly_withEvents (u.withEvents s.events) u.events).trans hframe).mono (by simp)
      · rw [hleft ht, htail, State.popEvent_events, List.drop_tail]
    · exact ⟨s, s, runSteps_of_not_running hs _, runEvents_of_not_running hs _, ChangesOnly.refl _ s,
        fun h => absurd h hs⟩

/-! ### The nominal schedule (R112, R113) -/

/-- A sequence of nominal events continues from the deadlines its own events have passed. -/
theorem nominalFrom_add (c : Config) (n m j k : Nat) :
    nominalFrom c (n + m) j k = nominalFrom c n j k ++
      nominalFrom c m (j + (nominalFrom c n j k).count .timer) (k + (nominalFrom c n j k).count .instr) := by
  induction n generalizing j k with
  | zero => simp [nominalFrom]
  | succ n ih =>
    rw [Nat.add_right_comm]
    cases hnext : nominalNext c j k with
    | timer => simp [nominalFrom, hnext, ih, Nat.add_assoc, Nat.add_comm 1]
    | instr => simp [nominalFrom, hnext, ih, Nat.add_assoc, Nat.add_comm 1]

section NominalAt700Hz
variable {c : Config} (hz : c.instrHz = 700)
include hz

/-- Three timer periods are 35 instruction periods, so which event is next does not change when both clocks move by them. -/
theorem nominalNext_shift (j k : Nat) : nominalNext c (j + 3) (k + 35) = nominalNext c j k := by
  have htimer : (j + 3) * 700 < (k + 35) * timerHz ↔ j * 700 < k * timerHz := by simp only [timerHz]; omega
  have hinstr : (k + 35) * timerHz < (j + 3) * 700 ↔ k * timerHz < j * 700 := by simp only [timerHz]; omega
  simp only [nominalNext, hz, htimer, hinstr]

theorem nominalFrom_shift (n j k : Nat) : nominalFrom c n (j + 3) (k + 35) = nominalFrom c n j k := by
  induction n generalizing j k with
  | zero => rfl
  | succ n ih =>
    simp only [nominalFrom, nominalNext_shift hz]
    cases nominalNext c j k
    · exact congrArg _ (ih (j + 1) k)
    · exact congrArg _ (ih j (k + 1))

/-- The first block, by running the schedule. -/
theorem nominalFrom_block : nominalFrom c 38 1 1 = nominalBlock c.tieOrder := by
  obtain ⟨legacyShift, instrHz, font, stackLimit, tieOrder⟩ := c
  cases hz
  cases tieOrder <;> rfl

end NominalAt700Hz

theorem count_nominalBlock (o : TieOrder) :
    (nominalBlock o).count .timer = 3 ∧ (nominalBlock o).count .instr = 35 := by
  cases o <;> decide

/-- Settles O23: by induction on the blocks; each moves the clocks by 3 and 35 periods, after which the schedule repeats. -/
theorem nominalScheduleAt700Hz : Obligations.NominalScheduleAt700Hz := by
  intro c m hz
  obtain ⟨htimer, hinstr⟩ := count_nominalBlock c.tieOrder
  induction m with
  | zero => rfl
  | succ m ih =>
    calc nominalFrom c (38 * (m + 1)) 1 1
        = nominalFrom c (38 + 38 * m) 1 1 := by rw [Nat.mul_succ, Nat.add_comm]
      _ = nominalBlock c.tieOrder ++ nominalFrom c (38 * m) (1 + 3) (1 + 35) := by
        rw [nominalFrom_add, nominalFrom_block hz, htimer, hinstr]
      _ = nominalBlock c.tieOrder ++ nominalEvents c (38 * m) := by rw [nominalFrom_shift hz, nominalEvents]
      _ = (List.replicate (m + 1) (nominalBlock c.tieOrder)).flatten := by
        rw [ih, List.replicate_succ, List.flatten_cons]

/-! ### The placed word (log entry 12) -/

theorem wordOfBytes_firstByte_secondByte (w : Word) : wordOfBytes (firstByte w) (secondByte w) = w := by
  rw [wordOfBytes, firstByte, secondByte,
    BitVec.extractLsb'_append_extractLsb'_eq_extractLsb' (start₁ := 0) (start₂ := 8) rfl]
  exact BitVec.extractLsb'_eq_self

theorem tableWord_sixteen (w : Nat) : tableWord 16 w = BitVec.ofNat 16 w :=
  BitVec.eq_of_toNat_eq (by simp [tableWord])

theorem fetchable_iff (pc : Word) : fetchable pc = true ↔ pc.toNat % 2 = 0 ∧ pc.toNat ≤ 0xFFE := by
  simp only [fetchable, memSize, Bool.and_eq_true, beq_iff_eq, decide_eq_true_eq]
  omega

section PlaceWord
variable (s : State) (w : Word)

theorem placeWord_nextEvent : (s.placeWord w).nextEvent = .instr := by
  have hevents : (s.placeWord w).events = if s.nextEvent = .instr then s.events else .instr :: s.events := rfl
  rw [State.nextEvent, hevents]
  split_ifs with h
  · exact h
  · rfl

theorem placeWord_pc : (s.placeWord w).pc = if fetchable s.pc then s.pc else 0x0200 := rfl

theorem fetchable_placeWord_pc : fetchable (s.placeWord w).pc = true := by
  rw [placeWord_pc]
  split_ifs with h
  · exact h
  · rfl

theorem placeWord_bytes (hwf : Memory.wf s.config s.mem) :
    wordOfBytes ((s.placeWord w).byteAt (s.placeWord w).pc.toNat)
      ((s.placeWord w).byteAt ((s.placeWord w).pc.toNat + 1)) = w := by
  have hlt : (s.placeWord w).pc.toNat < memSize := by
    have := ((fetchable_iff _).1 (fetchable_placeWord_pc s w)).2
    simp only [memSize]
    omega
  obtain ⟨hfirst, hsecond⟩ := byteAt_putBytes_pair s _ (firstByte w) (secondByte w) hwf hlt
  calc _ = wordOfBytes (firstByte w) (secondByte w) := congrArg₂ wordOfBytes hfirst hsecond
    _ = w := wordOfBytes_firstByte_secondByte w

end PlaceWord

/-- Settles O24: the placed word is an open event's word, at an address that can be fetched from. -/
theorem placedWordRunsNext : Obligations.PlacedWordRunsNext := by
  intro s w i hwf hdecode
  rw [State.withFetchWord, tableWord_sixteen]
  obtain ⟨heven, hle⟩ := (fetchable_iff _).1 (fetchable_placeWord_pc s (BitVec.ofNat 16 w))
  refine ⟨_, stepRunsTheDecodedInstruction _ i rfl (placeWord_nextEvent s _) rfl heven hle ?_,
    rfl, rfl, rfl, rfl, rfl, rfl, fun hs hs' => ?_, fun hs => ?_⟩
  · rw [placeWord_bytes s _ hwf, hdecode]
  · rw [State.setPc_pc, placeWord_pc, if_pos ((fetchable_iff _).2 ⟨hs, hs'⟩)]
  · have hno : ¬ fetchable s.pc = true := by rw [fetchable_iff]; omega
    rw [State.setPc_pc, placeWord_pc, if_neg hno]
    rfl

end Sys2Proof.Machine

/-! PROOFS of the family 41_system.md: HALT, CLS and RET, what each does and which word it is, and that HALT alone halts. -/

namespace Sys2Proof

/-- An instruction has one word: the one that encodes it (R76, R77). -/
theorem decode_eq_instr_iff (w : Word) (i : Instr) : decode w = .instr i ↔ w = encode i := by
  constructor
  · exact fun h => (encodeOfDecodeIsIdentity w i h).symm
  · rintro rfl
    exact decodeOfEncodeIsIdentity i

end Sys2Proof

namespace Sys2Proof.Machine

/-! ### HALT, and the only way to Halted (R120, R36) -/

/-- An instruction halts and is HALT, faults with nothing else changed, or keeps the run status (R36, R217). -/
theorem exec_status_cases {i : Instr} {s t : State} (h : exec i s = .next t) :
    (i = .halt ∧ t = s.halt) ∨ (∃ f, t = s.raise f) ∨ t.status = s.status := by
  cases i with
  | halt => cases h; exact .inl ⟨rfl, rfl⟩
  | ret =>
    rcases execRet_cases s with ⟨_, e⟩ | ⟨_, _, _, e⟩ <;> cases e.symm.trans h
    · exact .inr (.inl ⟨_, rfl⟩)
    · exact .inr (.inr rfl)
  | call nnn =>
    rcases execCall_cases nnn s with ⟨_, e⟩ | ⟨_, e⟩ <;> cases e.symm.trans h
    · exact .inr (.inl ⟨_, rfl⟩)
    · exact .inr (.inr rfl)
  | drw x y n =>
    rcases execDrw_cases x y n s with ⟨_, _, e⟩ | ⟨_, _, _, e⟩ <;> cases e.symm.trans h
    · exact .inr (.inl ⟨_, rfl⟩)
    · exact .inr (.inr rfl)
  | _ => exact .inr (.inr ((exec_changesOnly h).keeps (c := .status) (by simp [mayWrite])))

theorem eq_halt_of_exec_halted {i : Instr} {s t : State} (h : exec i s = .next t) (hs : s.status = .running)
    (ht : t.status = .halted) : i = .halt := by
  rcases exec_status_cases h with ⟨hi, _⟩ | ⟨f, rfl⟩ | hkept
  · exact hi
  · cases ht
  · cases hs.symm.trans (hkept.symm.trans ht)

/-- A cycle's own faults do not halt, so a cycle that halts has executed HALT. -/
theorem fetch_of_cycle_halted {s t : State} (h : cycle s = .next t) (hs : s.status = .running)
    (ht : t.status = .halted) : fetch s = .ok 0x0000 := by
  rcases cycle_cases h with ⟨e, _, rfl⟩ | ⟨_, _, w, hfetch, ⟨why, _, rfl⟩ | ⟨i, hdecode, hexec⟩⟩
  · cases ht
  · cases ht
  · have hi : i = .halt := eq_halt_of_exec_halted hexec hs ht
    have hw : w = 0x0000 := (decode_eq_instr_iff w .halt).1 (hi ▸ hdecode)
    rw [hfetch, hw]

/-- Settles O19: of the ways a step of a running machine can go, only the cycle's changes the run status. -/
theorem onlyTheZeroWordHalts : Obligations.OnlyTheZeroWordHalts := by
  intro s t h hs ht
  rcases step_cases h with ⟨hended, _⟩ | ⟨_, ⟨_, rfl⟩ | ⟨_, _, rfl⟩ | ⟨he, hdt, hcycle⟩⟩
  · exact absurd hs hended
  · cases hs.symm.trans ht
  · cases hs.symm.trans ht
  · exact ⟨he, hdt, fetch_of_cycle_halted (s := s.popEvent) hcycle hs ht⟩

/-- Two zero bytes at an even PC are fetched as the word of HALT (R51, R120). -/
theorem cycle_of_zero_bytes {s : State} (heven : s.pc.toNat % 2 = 0) (hle : s.pc.toNat ≤ 0xFFE)
    (hfirst : s.byteAt s.pc.toNat = 0) (hsecond : s.byteAt (s.pc.toNat + 1) = 0) :
    cycle s = .next (s.setPc (s.pc + 2)).halt := by
  have hfetch := fetch_of_even_of_le heven hle
  rw [hfirst, hsecond] at hfetch
  exact cycle_of_instr s _ .halt hfetch rfl

/-- Settles O25: HALT's one write is the run status, and an ended run handles no event. -/
theorem haltEndsTheRun : Obligations.HaltEndsTheRun := by
  refine ⟨fun w => decode_eq_instr_iff w .halt, fun s => ⟨_, rfl, s.halt_status, changesOnly_halt s⟩,
    fun s heven hle hfirst hsecond => ?_, fun s e hs => ?_⟩
  · exact ⟨_, cycle_of_zero_bytes heven hle hfirst hsecond, rfl, rfl,
      (changesOnly_setPc s _).trans (changesOnly_halt _)⟩
  · exact handleEvent_of_not_running (by simp [hs]) e

/-! ### CLS (R122) -/

theorem pixel_blank (r : Fin 32) (c : Fin 64) : FrameBuffer.blank.pixel r c = false := by
  simp [FrameBuffer.pixel, FrameBuffer.blank]

/-- Settles O26: CLS puts the blank frame buffer in place of the old one. -/
theorem clsClearsTheFrameBuffer : Obligations.ClsClearsTheFrameBuffer :=
  ⟨fun w => decode_eq_instr_iff w .cls, fun s => ⟨_, rfl, pixel_blank, changesOnly_setFb s _⟩⟩

/-! ### RET (R124) -/

theorem exec_ret_of_stack_concat {s : State} {rest : List Word} {a : Word} (h : s.stack = rest ++ [a]) :
    exec .ret s = .next (({ s with stack := rest } : State).setPc a) := by
  rw [exec, execRet, pop_concat s rest a h]

theorem exec_ret_of_stack_nil {s : State} (h : s.stack = []) :
    exec .ret s = .next (s.raise (.stackUnderflow s.fetchAddress)) := by
  rw [exec, execRet, pop_nil s h]

/-- Settles O27: the last entry becomes PC and the entries before it the stack. -/
theorem retPopsThePc : Obligations.RetPopsThePc :=
  ⟨fun w => decode_eq_instr_iff w .ret, fun s rest a h => ⟨_, exec_ret_of_stack_concat h, rfl, rfl,
    ((changesOnly_stack s rest).trans (changesOnly_setPc _ a)).mono (by simp)⟩⟩

/-- Settles O28: there is nothing to pop, and a fault changes the run status alone. -/
theorem retOnEmptyStackUnderflows : Obligations.RetOnEmptyStackUnderflows :=
  fun s h => ⟨_, exec_ret_of_stack_nil h, s.raise_status _, changesOnly_raise s _⟩

theorem exec_call_of_room (nnn : AddrField) {s : State} (h : s.config.stackLimit ≠ some s.stack.length) :
    exec (.call nnn) s = .next ((s.push s.pc).setPc (zextAddr nnn)) := by
  rcases execCall_cases nnn s with ⟨hfull, _⟩ | ⟨_, e⟩
  · exact absurd hfull h
  · exact e

/-- What CALL pushed, RET takes back: PC and the stack are those of the state before the CALL. -/
theorem exec_ret_after_call (nnn : AddrField) (s : State) :
    exec .ret ((s.push s.pc).setPc (zextAddr nnn)) = .next s :=
  exec_ret_of_stack_concat (rest := s.stack) (a := s.pc) rfl

/-- Settles O32: the RET after the CALL answers the very state before it. -/
theorem retUndoesCall : Obligations.RetUndoesCall :=
  fun nnn s h => ⟨_, s, exec_call_of_room nnn h, exec_ret_after_call nnn s, ChangesOnly.refl _ s⟩

end Sys2Proof.Machine

/-! PROOFS of the family 42_control_flow.md: the jumps, CALL and the skips, what each does and which words it is. -/

namespace Sys2Proof.Machine

/-! ### The words of the formats are the encoder's words (R71, R73) -/

theorem addrWord_eq_encodeAddr (op : BitVec 4) (nnn : AddrField) : addrWord op.toNat nnn = encodeAddr op nnn := by
  rw [addrWord, ← toNat_encodeAddr, BitVec.ofNat_toNat, BitVec.setWidth_eq]

theorem regImmWord_eq_encodeRegImm (op : BitVec 4) (x : Reg) (kk : Byte) :
    regImmWord op.toNat x kk = encodeRegImm op x kk := by
  rw [regImmWord, ← toNat_encodeRegImm, BitVec.ofNat_toNat, BitVec.setWidth_eq]

theorem regRegWord_eq_encodeRegReg (op : BitVec 4) (x y : Reg) (f : BitVec 4) :
    regRegWord op.toNat x y f.toNat = encodeRegReg op x y f := by
  rw [regRegWord, ← toNat_encodeRegReg, BitVec.ofNat_toNat, BitVec.setWidth_eq]

section DecodeOfWord
variable {i : Instr} {op : BitVec 4}

theorem decode_addrWord {nnn : AddrField} (hi : encode i = encodeAddr op nnn) :
    decode (addrWord op.toNat nnn) = .instr i :=
  (decode_eq_instr_iff _ i).2 ((addrWord_eq_encodeAddr op nnn).trans hi.symm)

theorem decode_regImmWord {x : Reg} {kk : Byte} (hi : encode i = encodeRegImm op x kk) :
    decode (regImmWord op.toNat x kk) = .instr i :=
  (decode_eq_instr_iff _ i).2 ((regImmWord_eq_encodeRegImm op x kk).trans hi.symm)

theorem decode_regRegWord {x y : Reg} {f : BitVec 4} (hi : encode i = encodeRegReg op x y f) :
    decode (regRegWord op.toNat x y f.toNat) = .instr i :=
  (decode_eq_instr_iff _ i).2 ((regRegWord_eq_encodeRegReg op x y f).trans hi.symm)

end DecodeOfWord

section RegRegWord
variable {op n : Nat} (x y : Reg) (hop : op < 16) (hn : n < 16)
include hop hn

theorem toNat_regRegWord : (regRegWord op x y n).toNat = op * 0x1000 + x.val * 0x100 + y.val * 0x10 + n := by
  have := x.isLt
  have := y.isLt
  rw [regRegWord, BitVec.toNat_ofNat]
  omega

theorem toNat_fieldOp_regRegWord : (fieldOp (regRegWord op x y n)).toNat = op := by
  rw [toNat_fieldOp, toNat_regRegWord x y hop hn]
  omega

theorem toNat_fieldN_regRegWord : (fieldN (regRegWord op x y n)).toNat = n := by
  rw [toNat_fieldN, toNat_regRegWord x y hop hn]
  omega

end RegRegWord

/-! ### JP, and the JP to itself (R130, R111) -/

/-- A fetch reads PC and the bytes of memory alone. -/
theorem fetch_congr {s t : State} (hpc : t.pc = s.pc) (hbytes : ∀ a, t.byteAt a = s.byteAt a) : fetch t = fetch s := by
  simp only [fetch, State.memReadWord, State.memRead, hpc, hbytes]

/-- A running machine whose next word is a JP to the address it stands at. -/
structure AtSelfJump (nnn : AddrField) (s : State) : Prop where
  running : s.status = .running
  pc : s.pc = zextAddr nnn
  word : fetch s = .ok (addrWord 1 nnn)

section SelfJump
variable {nnn : AddrField} {s : State} (h : AtSelfJump nnn s)
include h

/-- The jump puts PC back from where the fetch advanced it. -/
theorem AtSelfJump.cycle_eq : cycle s = .next s := by
  rw [cycle_of_instr s _ (.jp nnn) h.word (decode_addrWord (op := 1) rfl)]
  calc exec (.jp nnn) (s.setPc (s.pc + 2)) = .next (s.setPc (zextAddr nnn)) := rfl
    _ = .next s := by rw [← h.pc]; rfl

theorem AtSelfJump.handleEvent_frame (e : Event) : ∃ t, handleEvent e s = .next t ∧ ChangesOnly [.dt, .st] s t := by
  cases e with
  | timer =>
    obtain ⟨t, hevent, _, _, hframe⟩ := handleEvent_timer_spec h.running
    exact ⟨t, hevent, hframe⟩
  | instr =>
    refine ⟨s, ?_, ChangesOnly.refl _ s⟩
    by_cases hdt : s.dt = 0
    · exact (handleEvent_instr_of_dt_eq_zero h.running hdt).trans h.cycle_eq
    · exact handleEvent_instr_of_dt_ne_zero h.running hdt

theorem AtSelfJump.of_timers_changed {t : State} (hframe : ChangesOnly [.dt, .st] s t) : AtSelfJump nnn t := by
  have hpc : t.pc = s.pc := hframe.keeps (c := .pc) (by simp)
  have hbytes : ∀ a, t.byteAt a = s.byteAt a := hframe.keeps (c := .memory) (by simp)
  exact ⟨running_of_timers_changed hframe h.running, hpc.trans h.pc, (fetch_congr hpc hbytes).trans h.word⟩

end SelfJump

theorem AtSelfJump.runEvents_frame {nnn : AddrField} {s : State} (h : AtSelfJump nnn s) (es : List Event) :
    ∃ t, runEvents es s = .next t ∧ ChangesOnly [.dt, .st] s t := by
  induction es generalizing s with
  | nil => exact ⟨s, rfl, ChangesOnly.refl _ s⟩
  | cons e es ih =>
    obtain ⟨t, hevent, htframe⟩ := h.handleEvent_frame e
    obtain ⟨u, hrun, huframe⟩ := ih (h.of_timers_changed htframe)
    exact ⟨u, (runEvents_cons_next e es s t hevent).trans hrun, (htframe.trans huframe).mono (by simp)⟩

/-- Settles O29: the loop is an induction on the events, each of which leaves the machine at the same JP. -/
theorem jumpSetsPcAndToItselfLoops : Obligations.JumpSetsPcAndToItselfLoops := by
  refine ⟨fun nnn => decode_addrWord (op := 1) rfl,
    fun nnn s => ⟨_, rfl, toNat_zextAddr nnn, changesOnly_setPc s _⟩, fun nnn s es hs hpc hfetch => ?_⟩
  have hpc' : s.pc = zextAddr nnn := BitVec.eq_of_toNat_eq (hpc.trans (toNat_zextAddr nnn).symm)
  exact AtSelfJump.runEvents_frame ⟨hs, hpc', hfetch⟩ es

/-! ### JP V0 (R142) and CALL (R132) -/

/-- Settles O36: a 12-bit address and a byte have a sum of at most 0x10FE. -/
theorem jumpWithV0Offset : Obligations.JumpWithV0Offset :=
  fun nnn => ⟨decode_addrWord (op := 0xB) rfl,
    fun s => ⟨_, rfl, toNat_zextAddr_add_byte nnn (s.reg 0), changesOnly_setPc s _⟩⟩

/-- Settles O30: with room on the stack CALL is a push of PC and a jump. -/
theorem callPushesAndJumps : Obligations.CallPushesAndJumps :=
  ⟨fun nnn => decode_addrWord (op := 2) rfl,
    fun nnn s hroom => ⟨_, exec_call_of_room nnn hroom, toNat_zextAddr nnn, rfl,
      ((changesOnly_push s _).trans (changesOnly_setPc _ _)).mono (by simp)⟩⟩

/-! ### The skips (R134, R136, R138, R140, R144) -/

theorem skipIf_pc (s : State) (c : Bool) : (s.skipIf c).pc = if c then s.pc + 2 else s.pc := by
  rcases skipIf_cases s c with ⟨hc, e⟩ | ⟨hc, e⟩
  · rw [e, State.setPc_pc, if_pos hc]
  · rw [e, hc, if_neg Bool.false_ne_true]

theorem skipIf_beq_pc (s : State) (a b : Byte) :
    (s.skipIf (a == b)).pc = if a.toNat = b.toNat then s.pc + 2 else s.pc := by
  simp only [skipIf_pc, beq_iff_eq, BitVec.toNat_inj]

theorem skipIf_bne_pc (s : State) (a b : Byte) :
    (s.skipIf (a != b)).pc = if a.toNat = b.toNat then s.pc else s.pc + 2 := by
  simp only [skipIf_pc, bne_iff_ne, ne_eq, ite_not, BitVec.toNat_inj]

/-- Settles O33: SE skips on equality and SNE on difference, and a skip writes PC alone. -/
theorem skipsOnAByte : Obligations.SkipsOnAByte :=
  fun x kk => ⟨decode_regImmWord (op := 3) rfl, decode_regImmWord (op := 4) rfl,
    fun s => ⟨⟨_, rfl, skipIf_beq_pc s (s.reg x) kk, changesOnly_skipIf s _⟩,
      ⟨_, rfl, skipIf_bne_pc s (s.reg x) kk, changesOnly_skipIf s _⟩⟩⟩

/-- With major opcode 5 or 9 a nonzero low nibble leaves the word without a row (R80). -/
theorem decode_regRegWord_of_low_nibble (x y : Reg) {n : Nat} (hpos : 0 < n) (hlt : n < 16) :
    decode (regRegWord 5 x y n) = .failure .op5LowNibble ∧ decode (regRegWord 9 x y n) = .failure .op9LowNibble := by
  have hnibble (op : Nat) (hop : op < 16) : (fieldN (regRegWord op x y n)).toNat ≠ 0 := by
    rw [toNat_fieldN_regRegWord x y hop hlt]
    omega
  exact ⟨(decode_eq_failure_iff _ _).2 ⟨toNat_fieldOp_regRegWord x y (by decide) hlt, hnibble 5 (by decide)⟩,
    (decode_eq_failure_iff _ _).2 ⟨toNat_fieldOp_regRegWord x y (by decide) hlt, hnibble 9 (by decide)⟩⟩

/-- Settles O34: as on a byte, with the second register's value for the literal. -/
theorem skipsOnRegisters : Obligations.SkipsOnRegisters :=
  fun x y => ⟨decode_regRegWord (op := 5) (f := 0) rfl, decode_regRegWord (op := 9) (f := 0) rfl,
    fun _ => decode_regRegWord_of_low_nibble x y,
    fun s => ⟨⟨_, rfl, skipIf_beq_pc s (s.reg x) (s.reg y), changesOnly_skipIf s _⟩,
      ⟨_, rfl, skipIf_bne_pc s (s.reg x) (s.reg y), changesOnly_skipIf s _⟩⟩⟩

theorem pc_le_of_fetch_ok {s : State} {w : Word} (h : fetch s = .ok w) : s.pc.toNat ≤ 0xFFE := by
  rcases fetch_cases s with ⟨_, e⟩ | ⟨_, _, e⟩ | ⟨_, hle, _⟩
  · cases e.symm.trans h
  · cases e.symm.trans h
  · exact hle

/-- The cycle of a skip that holds advances PC twice and reads no memory but its own word. -/
theorem cycle_of_taken_skip {s : State} {w : Word} {i : Instr} {c : Bool} (hfetch : fetch s = .ok w)
    (hdecode : decode w = .instr i)
    (hskip : exec i (s.setPc (s.pc + 2)) = .next ((s.setPc (s.pc + 2)).skipIf c)) (hc : c = true) :
    ∃ t, cycle s = .next t ∧ t.pc.toNat = s.pc.toNat + 4 ∧ ChangesOnly [.pc] s t := by
  have hle := pc_le_of_fetch_ok hfetch
  have hnext : (s.pc + 2).toNat = s.pc.toNat + 2 := toNat_add_two _ (by omega)
  refine ⟨_, (cycle_of_instr s w i hfetch hdecode).trans hskip, ?_,
    ((changesOnly_setPc s _).trans (changesOnly_skipIf _ c)).mono (by simp)⟩
  rw [skipIf_pc, if_pos hc, State.setPc_pc, toNat_add_two _ (by omega), hnext]

/-- Settles O35: each of the four kinds is a skip whose condition, which reads registers alone, holds. -/
theorem takenSkipIgnoresTheSkippedWord : Obligations.TakenSkipIgnoresTheSkippedWord := by
  rintro s w hfetch (⟨x, kk, hdecode, heq⟩ | ⟨x, kk, hdecode, hne⟩ | ⟨x, y, hdecode, heq⟩ | ⟨x, y, hdecode, hne⟩)
  · exact cycle_of_taken_skip hfetch hdecode rfl (beq_iff_eq.2 heq)
  · exact cycle_of_taken_skip hfetch hdecode rfl (bne_iff_ne.2 hne)
  · exact cycle_of_taken_skip hfetch hdecode rfl (beq_iff_eq.2 heq)
  · exact cycle_of_taken_skip hfetch hdecode rfl (bne_iff_ne.2 hne)

end Sys2Proof.Machine

/-! PROOFS of the family 43_alu.md: what the ALU's flags and results are as numbers, and what each instruction does. -/

namespace Sys2Proof.Machine

/-! ### The flags as numbers (R34, R150) -/

theorem toNat_flagByte (p : Prop) [Decidable p] : (flagByte (decide p)).toNat = if p then 1 else 0 := by
  by_cases h : p <;> simp [flagByte, h]

/-- The sum of two bytes is below 512, so its ninth bit is set exactly from 256 on. -/
theorem toNat_carryFlag (a b : Byte) : (carryFlag a b).toNat = if 255 < a.toNat + b.toNat then 1 else 0 := by
  have := a.isLt
  have := b.isLt
  rw [carryFlag, BitVec.toNat_ofNat, Nat.shiftRight_eq_div_pow]
  split <;> omega

theorem toNat_noBorrowFlag (a b : Byte) : (noBorrowFlag a b).toNat = if b.toNat ≤ a.toNat then 1 else 0 :=
  toNat_flagByte _

theorem toNat_lowBitFlag (v : Byte) : (lowBitFlag v).toNat = v.toNat % 2 := by
  rw [lowBitFlag, BitVec.toNat_and]
  exact Nat.and_one_is_mod v.toNat

/-- Shifted right by 7 a byte is its bit 7 alone, so the mask changes nothing. -/
theorem toNat_highBitFlag (v : Byte) : (highBitFlag v).toNat = v.toNat / 128 := by
  have := v.isLt
  calc (highBitFlag v).toNat = (v >>> 7).toNat % 2 := toNat_lowBitFlag _
    _ = v.toNat / 2 ^ 7 % 2 := by rw [BitVec.toNat_ushiftRight, Nat.shiftRight_eq_div_pow]
    _ = v.toNat / 128 := by omega

/-! ### The results as numbers (R150) -/

theorem toNat_byte_sub (a b : Byte) : (a - b).toNat = (256 + a.toNat - b.toNat) % 256 := by
  have := b.isLt
  rw [BitVec.toNat_sub]
  omega

theorem toNat_byte_shiftRight_one (v : Byte) : (v >>> 1).toNat = v.toNat / 2 := by
  rw [BitVec.toNat_ushiftRight, Nat.shiftRight_eq_div_pow, Nat.pow_one]

theorem toNat_byte_shiftLeft_one (v : Byte) : (v <<< 1).toNat = 2 * v.toNat % 256 := by
  rw [BitVec.toNat_shiftLeft, Nat.shiftLeft_eq, Nat.pow_one, Nat.mul_comm]

/-! ### The two ways an ALU instruction writes its results (R151) -/

section Writes
variable {i : Instr} {s : State} {x : Reg} {result flag : Byte} {m n : Nat}

/-- An instruction that sets V[x] alone writes no flag. -/
theorem exec_setReg_spec (h : exec i s = .next (s.setReg x result)) (hresult : result.toNat = n) :
    ∃ t, exec i s = .next t ∧ (t.reg x).toNat = n ∧ ChangesOnly [.reg x] s t :=
  ⟨_, h, (congrArg BitVec.toNat (reg_setReg_same s x result)).trans hresult, changesOnly_setReg s x result⟩

/-- VF is written last: it is the flag whatever x is, and V[x] the result unless x = F (decision D8). -/
theorem exec_setRegThenFlag_spec (h : exec i s = .next (s.setRegThenFlag x result flag)) (hflag : flag.toNat = m)
    (hresult : result.toNat = n) :
    ∃ t, exec i s = .next t ∧ (t.reg vf).toNat = m ∧ (x ≠ vf → (t.reg x).toNat = n) ∧
      ChangesOnly [.reg x, .reg vf] s t := by
  refine ⟨_, h, ?_, fun hx => ?_, changesOnly_setRegThenFlag s x result flag⟩
  · rw [reg_setRegThenFlag, if_pos rfl, hflag]
  · rw [reg_setRegThenFlag, if_neg hx, if_pos rfl, hresult]

end Writes

/-! ### Loads, the byte add and the bitwise operations (R152 to R157) -/

/-- Settles O37: each sets V[x] alone, and the sum of bytes is a sum modulo 256. -/
theorem loadsAndByteAdd : Obligations.LoadsAndByteAdd :=
  fun x y kk => ⟨decode_regImmWord (op := 6) rfl, decode_regImmWord (op := 7) rfl,
    decode_regRegWord (op := 8) (f := 0) rfl,
    fun s => ⟨⟨_, rfl, reg_setReg_same s x kk, changesOnly_setReg s x kk⟩,
      exec_setReg_spec rfl (BitVec.toNat_add (s.reg x) kk),
      ⟨_, rfl, reg_setReg_same s x (s.reg y), changesOnly_setReg s x (s.reg y)⟩⟩⟩

/-- Settles O38: each sets V[x] alone. -/
theorem bitwiseOperations : Obligations.BitwiseOperations :=
  fun x y => ⟨decode_regRegWord (op := 8) (f := 1) rfl, decode_regRegWord (op := 8) (f := 2) rfl,
    decode_regRegWord (op := 8) (f := 3) rfl,
    fun s => ⟨exec_setReg_spec rfl (BitVec.toNat_or (s.reg x) (s.reg y)),
      exec_setReg_spec rfl (BitVec.toNat_and (s.reg x) (s.reg y)),
      exec_setReg_spec rfl (BitVec.toNat_xor (s.reg x) (s.reg y))⟩⟩

/-! ### The flag-writing arithmetic (R158, R159, R161, R163) -/

/-- Settles O39: the flag, written last, is the ninth bit of the sum of the operands read before any write. -/
theorem addSetsTheCarry : Obligations.AddSetsTheCarry :=
  fun x y => ⟨decode_regRegWord (op := 8) (f := 4) rfl,
    fun s => exec_setRegThenFlag_spec rfl (toNat_carryFlag (s.reg x) (s.reg y)) (BitVec.toNat_add (s.reg x) (s.reg y))⟩

/-- Settles O40: SUBN is SUB with the operands exchanged, in the difference and in the flag. -/
theorem subtractSetsNoBorrow : Obligations.SubtractSetsNoBorrow :=
  fun x y => ⟨decode_regRegWord (op := 8) (f := 5) rfl, decode_regRegWord (op := 8) (f := 7) rfl,
    fun s => ⟨exec_setRegThenFlag_spec rfl (toNat_noBorrowFlag (s.reg x) (s.reg y)) (toNat_byte_sub (s.reg x) (s.reg y)),
      exec_setRegThenFlag_spec rfl (toNat_noBorrowFlag (s.reg y) (s.reg x)) (toNat_byte_sub (s.reg y) (s.reg x))⟩⟩

/-! ### The shifts (R160, R162, R164) -/

/-- Settles O41: the dialect chooses the operand, and both shifts and both flags are functions of that operand. -/
theorem shiftsSetTheBitShiftedOut : Obligations.ShiftsSetTheBitShiftedOut := by
  refine fun x y => ⟨decode_regRegWord (op := 8) (f := 6) rfl, decode_regRegWord (op := 8) (f := 14) rfl,
    fun s v hv => ?_⟩
  have hoperand : s.shiftOperand x y = v := hv.symm
  subst hoperand
  exact ⟨exec_setRegThenFlag_spec rfl (toNat_lowBitFlag _) (toNat_byte_shiftRight_one _),
    exec_setRegThenFlag_spec rfl (toNat_highBitFlag _) (toNat_byte_shiftLeft_one _)⟩

/-- Settles O42: with y = x both dialects shift V[x], and the shifts' rules give the example's values. -/
theorem shiftExampleOfTheSource : Obligations.ShiftExampleOfTheSource := by
  intro s x hx hvalue
  obtain ⟨_, _, hshifts⟩ := shiftsSetTheBitShiftedOut x x
  have hoperand : 0b10111111 = if s.config.legacyShift = true then s.reg x else s.reg x := by rw [ite_self, hvalue]
  obtain ⟨⟨t, hshr, hlow, hhalf, _⟩, ⟨u, hshl, hhigh, hdouble, _⟩⟩ := hshifts s _ hoperand
  exact ⟨⟨u, hshl, BitVec.eq_of_toNat_eq hhigh, BitVec.eq_of_toNat_eq (hdouble hx)⟩,
    ⟨t, hshr, BitVec.eq_of_toNat_eq hlow, BitVec.eq_of_toNat_eq (hhalf hx)⟩⟩

end Sys2Proof.Machine

/-! PROOFS of the family 44_index_random.md: LD I, and RND with the random source it draws from. -/

namespace Sys2Proof.Machine

/-! ### LD I (R180) -/

/-- Settles O43: LD I sets I alone, and zero extension keeps the address's value. -/
theorem loadIndex : Obligations.LoadIndex :=
  fun nnn => ⟨decode_addrWord (op := 0xA) rfl, fun s => ⟨_, rfl, toNat_zextAddr nnn, changesOnly_setI s _⟩⟩

/-! ### The random source (R184, decision D15) -/

/-- Any change of the bytes to replay alone. -/
theorem changesOnly_replay (s : State) (bs : List Byte) : ChangesOnly [.replay] s { s with replay := bs } := by
  intro c hc
  cases c with
  | replay => simp at hc
  | memory => exact fun _ => rfl
  | _ => rfl

theorem drawnByte_of_replay_cons {s : State} {b : Byte} {bs : List Byte} (h : s.replay = b :: bs) :
    s.drawnByte = b := by
  rw [State.drawnByte, h]

/-- No byte is excluded as a draw: the state that replays it differs from the given one in its replay alone. -/
theorem exists_drawnByte_eq (s : State) (d : Byte) : ∃ s', ChangesOnly [.replay] s s' ∧ s'.drawnByte = d :=
  ⟨{ s with replay := d :: s.replay }, changesOnly_replay s _, drawnByte_of_replay_cons rfl⟩

/-! ### RND (R182) -/

/-- A masked byte has no bit outside its mask. -/
theorem byte_and_mask_and_not_mask (d kk : Byte) : (d &&& kk) &&& ~~~kk = 0 := by
  rw [BitVec.and_assoc, BitVec.and_not_self]
  exact BitVec.and_zero

/-- Settles O44: RND writes V[x] last, with the byte drawn before the draw is taken from the source. -/
theorem randomByteIsMasked : Obligations.RandomByteIsMasked := by
  refine fun x kk => ⟨decode_regImmWord (op := 0xC) rfl, fun s => ?_, exists_drawnByte_eq⟩
  have hreg : (s.afterDraw.setReg x (s.drawnByte &&& kk)).reg x = s.drawnByte &&& kk := reg_setReg_same _ x _
  refine ⟨_, rfl, hreg, ?_, fun hkk => ?_, fun hkk => ?_, ?_, exec_changesOnly (i := .rnd x kk) rfl⟩
  · rw [hreg, byte_and_mask_and_not_mask]
  · rw [hreg, hkk]
    exact BitVec.and_zero
  · rw [hreg, hkk]
    exact BitVec.and_allOnes
  · rw [State.setReg_drawCount, State.afterDraw_drawCount]

end Sys2Proof.Machine

/-! PROOFS of the family 45_display.md: the compositor as the exclusive or with a set of pixels, and the draws it makes. -/

namespace Sys2Proof.Machine

/-! ### The pixels of a frame buffer -/

theorem pixel_flip (fb : FrameBuffer) (r r' : Fin 32) (c c' : Fin 64) :
    (fb.flip r c).pixel r' c' = if r' = r ∧ c' = c then !fb.pixel r c else fb.pixel r' c' := by
  unfold FrameBuffer.flip FrameBuffer.pixel
  by_cases hr : r' = r
  · subst hr
    by_cases hc : c' = c
    · subst hc
      simp
    · simp [hc, Fin.val_inj, Ne.symm hc]
  · simp [hr, Fin.val_inj, Ne.symm hr]

theorem FrameBuffer.ext_pixel {fb fb' : FrameBuffer} (h : ∀ r c, fb.pixel r c = fb'.pixel r c) : fb = fb' :=
  Vector.ext fun r hr => Vector.ext fun c hc => h ⟨r, hr⟩ ⟨c, hc⟩

/-! ### Inverting a set of pixels (R193) -/

/-- From one accumulator of the compositor's loop to another, exactly the pixels of S are inverted, and the collision
found so far is joined by whether one of them was on. -/
def Inverts (S : Fin 32 → Fin 64 → Prop) (before after : FrameBuffer × Bool) : Prop :=
  (∀ r c, (after.1.pixel r c = true ↔ Xor (before.1.pixel r c = true) (S r c))) ∧
    (after.2 = true ↔ before.2 = true ∨ ∃ r c, S r c ∧ before.1.pixel r c = true)

theorem inverts_self_of_empty {S : Fin 32 → Fin 64 → Prop} (hS : ∀ r c, ¬ S r c) (acc : FrameBuffer × Bool) :
    Inverts S acc acc := by
  simp [Inverts, Xor, hS]

theorem Inverts.congr {S T : Fin 32 → Fin 64 → Prop} {before after : FrameBuffer × Bool} (h : Inverts S before after)
    (heq : ∀ r c, T r c ↔ S r c) : Inverts T before after := by
  rwa [show T = S from funext₂ fun r c => propext (heq r c)]

/-- As no pixel is inverted twice, the second collision is with the pixels on before the first (R193). -/
theorem Inverts.trans {S T : Fin 32 → Fin 64 → Prop} {before mid after : FrameBuffer × Bool}
    (hfirst : Inverts S before mid) (hsecond : Inverts T mid after) (hdisjoint : ∀ r c, S r c → ¬ T r c) :
    Inverts (fun r c => S r c ∨ T r c) before after := by
  obtain ⟨hpixel, hcollision⟩ := hfirst
  obtain ⟨hpixel', hcollision'⟩ := hsecond
  have hkept (r c) : T r c ∧ mid.1.pixel r c = true ↔ T r c ∧ before.1.pixel r c = true := by
    refine and_congr_right fun hT => ?_
    simp [hpixel, Xor, show ¬ S r c from fun hS => hdisjoint r c hS hT]
  refine ⟨fun r c => ?_, ?_⟩
  · rw [hpixel', hpixel]
    by_cases hS : S r c
    · simp [hS, hdisjoint r c hS, Xor]
    · simp [hS, Xor]
  · simp only [hcollision', hcollision, hkept, or_and_right, exists_or, or_assoc]

/-! ### What the compositor's loops invert (R192) -/

theorem inverts_composeBit (row column : Nat) (acc : FrameBuffer × Bool) :
    Inverts (fun r c => r.val = row % 32 ∧ c.val = column % 64) acc (composeBit row column acc) := by
  have hpoint (r : Fin 32) (c : Fin 64) :
      r.val = row % 32 ∧ c.val = column % 64 ↔ r = Fin.ofNat 32 row ∧ c = Fin.ofNat 64 column := by
    simp only [Fin.ext_iff, Fin.val_ofNat]
  refine Inverts.congr ⟨fun r c => ?_, ?_⟩ hpoint
  · rw [composeBit, pixel_flip, xor_iff_not_iff]
    split
    · next h => simp [h]
    · next h => simp only [h, iff_false, not_not]
  · simp [composeBit]

/-- R192's inner loop after k of its turns. -/
def composeBits (byte : Byte) (row column k : Nat) (acc : FrameBuffer × Bool) : FrameBuffer × Bool :=
  (List.range k).foldl (fun acc b => if spriteBit byte b then composeBit row (column + b) acc else acc) acc

theorem composeBits_succ (byte : Byte) (row column k : Nat) (acc : FrameBuffer × Bool) :
    composeBits byte row column (k + 1) acc =
      if spriteBit byte k then composeBit row (column + k) (composeBits byte row column k acc)
      else composeBits byte row column k acc := by
  simp [composeBits, List.range_succ]

/-- Pixel (r, c) lies under one of the first k bits of a sprite row, if that bit is set. -/
def ByteCovers (byte : Byte) (row column k : Nat) (r : Fin 32) (c : Fin 64) : Prop :=
  ∃ b < k, spriteBit byte b = true ∧ r.val = row % 32 ∧ c.val = (column + b) % 64

theorem byteCovers_succ (byte : Byte) (row column k : Nat) (r : Fin 32) (c : Fin 64) :
    ByteCovers byte row column (k + 1) r c ↔ ByteCovers byte row column k r c ∨
      spriteBit byte k = true ∧ r.val = row % 32 ∧ c.val = (column + k) % 64 := by
  simp only [ByteCovers, Nat.exists_lt_succ_right]

/-- Up to 64 bits in a row meet no column twice. -/
theorem inverts_composeBits (byte : Byte) (row column : Nat) (acc : FrameBuffer × Bool) {k : Nat} (hk : k ≤ 64) :
    Inverts (ByteCovers byte row column k) acc (composeBits byte row column k acc) := by
  induction k with
  | zero => exact inverts_self_of_empty (fun r c ⟨b, hb, _⟩ => Nat.not_lt_zero b hb) acc
  | succ k ih =>
    have ih := ih (by omega)
    rw [composeBits_succ]
    split
    · next hbit =>
      refine (ih.trans (inverts_composeBit row (column + k) _) ?_).congr fun r c => ?_
      · rintro r c ⟨b, hb, _, _, hc⟩ ⟨_, hc'⟩
        omega
      · simp only [byteCovers_succ, hbit, true_and]
    · next hbit => exact ih.congr fun r c => by rw [byteCovers_succ, or_iff_left fun h => hbit h.1]

/-- A whole byte is eight turns of the loop. -/
theorem inverts_composeByte (byte : Byte) (row column : Nat) (acc : FrameBuffer × Bool) :
    Inverts (ByteCovers byte row column 8) acc (composeByte byte row column acc) :=
  inverts_composeBits byte row column acc (by decide)

theorem covers_cons (byte : Byte) (rest : List Byte) (cx cy : Nat) (r : Fin 32) (c : Fin 64) :
    Covers (byte :: rest) cx cy r c ↔ ByteCovers byte cy cx 8 r c ∨ Covers rest cx (cy + 1) r c := by
  constructor
  · rintro ⟨j, byte', b, hj, hb, hbit, hr, hc⟩
    cases j with
    | zero =>
      cases hj
      exact .inl ⟨b, hb, hbit, hr, hc⟩
    | succ j => exact .inr ⟨j, byte', b, hj, hb, hbit, by omega, hc⟩
  · rintro (⟨b, hb, hbit, hr, hc⟩ | ⟨j, byte', b, hj, hb, hbit, hr, hc⟩)
    · exact ⟨0, byte, b, rfl, hb, hbit, hr, hc⟩
    · exact ⟨j + 1, byte', b, hj, hb, hbit, by omega, hc⟩

theorem not_covers_nil (cx cy : Nat) (r : Fin 32) (c : Fin 64) : ¬ Covers [] cx cy r c :=
  fun ⟨_, _, _, hj, _⟩ => nomatch hj

/-- Up to 32 rows meet no row of the frame buffer twice. -/
theorem inverts_composeRows (cx : Nat) {sprite : List Byte} (hlength : sprite.length ≤ 32) (row : Nat)
    (acc : FrameBuffer × Bool) : Inverts (Covers sprite cx row) acc (composeRows cx row sprite acc) := by
  induction sprite generalizing row acc with
  | nil => exact inverts_self_of_empty (not_covers_nil cx row) acc
  | cons byte rest ih =>
    rw [List.length_cons] at hlength
    refine ((inverts_composeByte byte row cx acc).trans (ih (by omega) (row + 1) _) ?_).congr
      (covers_cons byte rest cx row)
    rintro r c ⟨_, _, _, hr, _⟩ ⟨j, _, _, hj, _, _, hr', _⟩
    obtain ⟨hjlt, _⟩ := List.getElem?_eq_some_iff.1 hj
    omega

section Compose
variable {sprite : List Byte} (hlength : sprite.length ≤ 15) (cx cy : Nat) (fb : FrameBuffer)
include hlength

theorem pixel_compose (r : Fin 32) (c : Fin 64) :
    (compose sprite cx cy fb).1.pixel r c = true ↔ Xor (fb.pixel r c = true) (Covers sprite cx cy r c) :=
  (inverts_composeRows cx (hlength.trans (by decide)) cy (fb, false)).1 r c

theorem compose_collides_iff :
    (compose sprite cx cy fb).2 = true ↔ ∃ r c, Covers sprite cx cy r c ∧ fb.pixel r c = true := by
  simpa [compose] using (inverts_composeRows cx (hlength.trans (by decide)) cy (fb, false)).2

end Compose

/-- Settles O45: the loops invert the pixels the sprite covers, each once. -/
theorem composeIsXorWithTheSprite : Obligations.ComposeIsXorWithTheSprite :=
  fun _ cx cy fb hlength => ⟨pixel_compose hlength cx cy fb, compose_collides_iff hlength cx cy fb⟩

/-! ### The toroidal wrap and the double draw (R197, R198) -/

theorem spriteBit_ones : ∀ b < 8, spriteBit 0xFF b = true := by decide

/-- Settles O48: column 63 + b wraps to column b - 1 for each bit b but the first. -/
theorem spriteAtColumn63Wraps : Obligations.SpriteAtColumn63Wraps := by
  intro cy fb r c
  have hcovers : Covers [0xFF] 63 cy r c ↔ r.val = cy % 32 ∧ (c.val = 63 ∨ c.val ≤ 6) := by
    rw [covers_cons, or_iff_left (not_covers_nil _ _ r c)]
    constructor
    · rintro ⟨b, hb, _, hr, hc⟩
      omega
    · rintro ⟨hr, hc⟩
      have hb : (c.val + 1) % 64 < 8 := by omega
      exact ⟨(c.val + 1) % 64, hb, spriteBit_ones _ hb, hr, by omega⟩
  rw [pixel_compose (by decide), hcovers]

/-- Settles O49: (P xor S) xor S = P, and the second draw collides on S without P. -/
theorem drawingTwiceRestores : Obligations.DrawingTwiceRestores := by
  intro sprite cx cy fb hlength
  constructor
  · refine FrameBuffer.ext_pixel fun r c => Bool.eq_iff_iff.2 ?_
    rw [pixel_compose hlength, pixel_compose hlength]
    by_cases hS : Covers sprite cx cy r c <;> simp [hS, Xor]
  · rw [← Bool.not_eq_true, compose_collides_iff hlength]
    simp only [not_exists, not_and]
    refine forall₂_congr fun r c => forall_congr' fun hS => ?_
    simp [pixel_compose hlength, hS, Xor]

/-! ### DRW (R190, R191) -/

theorem spriteOutOfRange_eq_none_iff (s : State) (n : RowCount) :
    s.spriteOutOfRange n = none ↔ ∀ r < n.val, s.i.toNat + r ≤ 0xFFF := by
  simp [State.spriteOutOfRange]

theorem spriteOutOfRange_eq_some {s : State} {n : RowCount} {r : Nat} (hr : r < n.val) (hout : 0xFFF < s.i.toNat + r)
    (hfirst : ∀ r' < r, s.i.toNat + r' ≤ 0xFFF) : s.spriteOutOfRange n = some (s.i.toNat + r) := by
  rw [State.spriteOutOfRange, List.find?_map, List.find?_range_eq_some.2 ⟨?_, ?_, ?_⟩, Option.map_some]
  · simpa using hout
  · simpa using hr
  · simpa using hfirst

theorem length_sprite_le (s : State) (n : RowCount) : (s.sprite n).length ≤ 15 := by
  simpa [State.sprite] using Nat.le_of_lt_succ n.isLt

/-- Settles O46: a draw is `compose` on the frame buffer, with its collision written to VF. -/
theorem drawXorsTheSpriteWithWrap : Obligations.DrawXorsTheSpriteWithWrap := by
  refine fun x y n => ⟨decode_regRegWord (op := 0xD) (f := BitVec.ofFin n) rfl, ?_⟩
  rintro s _ hin rfl
  have hlength := length_sprite_le s n
  rcases execDrw_cases x y n s with ⟨a, hout, _⟩ | ⟨_, drawn, rfl, hexec⟩
  · exact absurd ((spriteOutOfRange_eq_none_iff s n).2 hin) (by simp [hout])
  · have hcollision := compose_collides_iff hlength (s.column x) (s.row y) s.fb
    exact ⟨_, hexec, pixel_compose hlength _ _ s.fb,
      fun h => (reg_setReg_same _ vf _).trans (congrArg flagByte (hcollision.2 h)),
      fun h => (reg_setReg_same _ vf _).trans (congrArg flagByte (Bool.eq_false_iff.2 (mt hcollision.1 h))),
      rfl, (changesOnly_draw s _ _).mono (by simp)⟩

/-- Settles O47: the first row above 0xFFF is found before the compositor runs, and a fault changes only the status. -/
theorem drawPastMemoryFaults : Obligations.DrawPastMemoryFaults := by
  intro x y n s r hr hout hfirst
  have hfound := spriteOutOfRange_eq_some hr hout hfirst
  rcases execDrw_cases x y n s with ⟨a, ha, hexec⟩ | ⟨hnone, _⟩
  · cases hfound.symm.trans ha
    exact ⟨_, hexec, s.raise_status _, changesOnly_raise s _⟩
  · exact absurd hnone (by simp [hfound])

end Sys2Proof.Machine

/-! PROOFS of the family 60_exceptions.md: the image loader (R228, R229), the faults an instruction, a cycle and a step can
raise (R210 to R217), and the outcome codes (R210). -/

namespace Sys2Proof.Machine

/-! ### Bytes written one after another (R12, R228) -/

theorem changesOnly_putByte (s : State) (a : Nat) (x : Byte) : ChangesOnly [.memory] s (s.putByte a x) := by
  intro c hc
  cases c with
  | memory => simp at hc
  | _ => rfl

theorem changesOnly_putBytes (s : State) (a : Nat) (xs : List Byte) : ChangesOnly [.memory] s (s.putBytes a xs) := by
  induction xs generalizing s a with
  | nil => exact ChangesOnly.refl _ s
  | cons x xs ih => exact ((changesOnly_putByte s a x).trans (ih _ (a + 1))).mono (by simp)

theorem byteAt_putBytes_outside (s : State) (a : Nat) (xs : List Byte) {b : Nat} (hb : b < a ∨ a + xs.length ≤ b) :
    (s.putBytes a xs).byteAt b = s.byteAt b := by
  induction xs generalizing s a with
  | nil => rfl
  | cons x xs ih =>
    rw [List.length_cons] at hb
    calc (s.putBytes a (x :: xs)).byteAt b = (s.putByte a x).byteAt b := ih _ (a + 1) (by omega)
      _ = s.byteAt b := Memory.read_write_other _ _ _ _ _ (by omega)

theorem byteAt_putBytes (s : State) (a : Nat) (xs : List Byte) (hwf : Memory.wf s.config s.mem)
    (hfit : a + xs.length ≤ memSize) (j : Nat) (hj : j < xs.length) : (s.putBytes a xs).byteAt (a + j) = xs[j] := by
  induction xs generalizing s a j with
  | nil => simp at hj
  | cons x xs ih =>
    rw [List.length_cons] at hfit hj
    cases j with
    | zero =>
      calc (s.putBytes a (x :: xs)).byteAt a = (s.putByte a x).byteAt a :=
            byteAt_putBytes_outside _ (a + 1) xs (by omega)
        _ = x := Memory.read_write_same _ _ _ _ hwf.1
    | succ j =>
      rw [← Nat.add_assoc, Nat.add_right_comm]
      exact ih (s.putByte a x) (a + 1) (Memory.wf_write _ _ _ _ (by omega) hwf) (by omega) j (by omega)

/-! ### The image loader (R228, R229) -/

section LoadImage
variable {image : List Byte}

theorem loadImage_of_le (h : image.length ≤ maxImage) (s : State) :
    loadImage image s = .next (s.putBytes loadAddress image) := if_pos (decide_eq_true h)

theorem loadImage_of_lt (h : maxImage < image.length) (s : State) :
    loadImage image s = .refused (.imageTooLarge image.length) := by
  rcases loadImage_cases image s with ⟨hle, _⟩ | ⟨_, e⟩
  · omega
  · exact e

/-- An accepted image ends within the address space. -/
theorem loadAddress_add_length_le (h : image.length ≤ maxImage) : loadAddress + image.length ≤ memSize := by
  simp only [maxImage, memSize, loadAddress] at *
  omega

end LoadImage

/-- Settles O10: the loader is `putBytes` at 0x200, whose bytes all lie in the address space. -/
theorem loaderCopiesTheImage : Obligations.LoaderCopiesTheImage := by
  intro image s hle hwf
  have hfit := loadAddress_add_length_le hle
  exact ⟨_, loadImage_of_le hle s, byteAt_putBytes s loadAddress image hwf hfit,
    fun _ => byteAt_putBytes_outside s loadAddress image, Memory.wf_putBytes s _ image hfit hwf,
    changesOnly_putBytes s _ image⟩

/-- Settles O9: the loader's one check is the length. -/
theorem oversizedImageIsRejected : Obligations.OversizedImageIsRejected :=
  fun _ s => ⟨fun h => loadImage_of_lt h s, fun h => ⟨_, loadImage_of_le h s⟩⟩

/-! ### The invariant at launch (R242) -/

theorem machineInv_create (c : Config) (dt0 st0 : Byte) : MachineInv (State.create c dt0 st0) where
  memory := by simp [Memory.wf, State.create]
  font _ h := dif_pos h
  index := Nat.zero_le _
  pc := by simp [State.create]
  returns := by simp [State.create]
  depth := by simp [State.create]

/-- Bytes written above the font region, within the address space, keep the invariant. -/
theorem MachineInv.putBytes {s : State} (hinv : MachineInv s) {a : Nat} {xs : List Byte} (hfont : fontSize ≤ a)
    (hfit : a + xs.length ≤ memSize) : MachineInv (s.putBytes a xs) := by
  have hframe := changesOnly_putBytes s a xs
  have hi : (s.putBytes a xs).i = s.i := hframe.keeps (c := .i) (by simp)
  have hpc : (s.putBytes a xs).pc = s.pc := hframe.keeps (c := .pc) (by simp)
  have hstack : (s.putBytes a xs).stack = s.stack := hframe.keeps (c := .stack) (by simp)
  exact
    { memory := Memory.wf_putBytes s a xs hfit hinv.memory
      font := fun b hb => by
        rw [byteAt_putBytes_outside s a xs (.inl (by omega)), hinv.font b hb, putBytes_config]
      index := hi ▸ hinv.index
      pc := hpc ▸ hinv.pc
      returns := hstack ▸ hinv.returns
      depth := by rw [hstack, putBytes_config]; exact hinv.depth }

/-- Settles O56: the invariant holds at creation, and the image lies above the font region. -/
theorem invariantAtLaunch : Obligations.InvariantAtLaunch := by
  intro c dt0 st0 image t h
  rcases loadImage_cases image (State.create c dt0 st0) with ⟨hle, e⟩ | ⟨_, e⟩ <;> cases e.symm.trans h
  have hframe := changesOnly_putBytes (State.create c dt0 st0) loadAddress image
  exact ⟨(machineInv_create c dt0 st0).putBytes (by decide) (loadAddress_add_length_le hle),
    hframe.keeps (c := .pc) (by simp), hframe.keeps (c := .status) (by simp)⟩

/-! ### The faults of an instruction (R212, R213, R191, R217) -/

theorem exists_row_of_spriteOutOfRange {s : State} {n : RowCount} {a : Nat} (h : s.spriteOutOfRange n = some a) :
    ∃ r, r < n.val ∧ 0xFFF < s.i.toNat + r ∧ a = s.i.toNat + r := by
  have habove : 0xFFF < a := by simpa using List.find?_some h
  obtain ⟨r, hr, rfl⟩ := List.mem_map.1 (List.mem_of_find?_eq_some h)
  exact ⟨r, List.mem_range.1 hr, habove, rfl⟩

/-- An instruction that faults raises its fault and does nothing else; it is RET on an empty stack, CALL on a full one, or
DRW of a sprite with a row above 0xFFF. -/
theorem exec_faulted_cases {i : Instr} {s t : State} {f : Fault} (h : exec i s = .next t) (hs : s.status = .running)
    (ht : t.status = .faulted f) :
    t = s.raise f ∧
      ((i = .ret ∧ s.stack = [] ∧ f = .stackUnderflow s.fetchAddress) ∨
       (∃ nnn, i = .call nnn ∧ s.config.stackLimit = some s.stack.length ∧ f = .stackOverflow s.fetchAddress) ∨
       (∃ x y n r, i = .drw x y n ∧ r < n.val ∧ 0xFFF < s.i.toNat + r ∧
          f = .memoryOutOfRange (s.i.toNat + r) s.fetchAddress)) := by
  have hchanged : t.status ≠ s.status := by simp [hs, ht]
  cases i with
  | halt => cases h; cases ht
  | ret =>
    rcases execRet_cases s with ⟨hempty, e⟩ | ⟨_, _, _, e⟩ <;> cases e.symm.trans h
    · cases ht
      exact ⟨rfl, .inl ⟨rfl, hempty, rfl⟩⟩
    · exact absurd rfl hchanged
  | call nnn =>
    rcases execCall_cases nnn s with ⟨hfull, e⟩ | ⟨_, e⟩ <;> cases e.symm.trans h
    · cases ht
      exact ⟨rfl, .inr (.inl ⟨nnn, rfl, hfull, rfl⟩)⟩
    · exact absurd rfl hchanged
  | drw x y n =>
    rcases execDrw_cases x y n s with ⟨a, hout, e⟩ | ⟨_, _, _, e⟩ <;> cases e.symm.trans h
    · cases ht
      obtain ⟨r, hr, habove, rfl⟩ := exists_row_of_spriteOutOfRange hout
      exact ⟨rfl, .inr (.inr ⟨x, y, n, r, rfl, hr, habove, rfl⟩)⟩
    · exact absurd rfl hchanged
  | _ => exact absurd ((exec_changesOnly h).keeps (c := .status) (by simp [mayWrite])) hchanged

/-- Settles O51: a faulting instruction answers its own entry state with the fault raised. -/
theorem instructionFaultsArePrecise : Obligations.InstructionFaultsArePrecise := by
  intro i s t f hs h ht
  obtain ⟨rfl, _⟩ := exec_faulted_cases h hs ht
  exact changesOnly_raise s f

/-- Settles O31: a full stack is CALL's faulting case. -/
theorem callOnFullStackOverflows : Obligations.CallOnFullStackOverflows := by
  intro nnn s hfull
  rcases execCall_cases nnn s with ⟨_, e⟩ | ⟨hroom, _⟩
  · exact ⟨_, e, s.raise_status _, changesOnly_raise s _⟩
  · exact absurd hfull hroom

/-! ### The faults of a cycle and of a step (R211, R216) -/

/-- While an instruction executes, its fetch address is where PC stood before it advanced by 2 (R26, R103). -/
@[simp] theorem fetchAddress_setPc_add_two (s : State) (a : Word) : (s.setPc (a + 2)).fetchAddress = a :=
  BitVec.add_sub_cancel a 2

theorem fetch_error_cases {s : State} {f : Fault} (h : fetch s = .error f) :
    (f = .misalignedFetch s.pc ∧ s.pc.toNat % 2 = 1) ∨
      (f = .fetchOutOfRange s.pc ∧ s.pc.toNat % 2 = 0 ∧ 0xFFE < s.pc.toNat) := by
  rcases fetch_cases s with ⟨hodd, e⟩ | ⟨heven, habove, e⟩ | ⟨_, _, e⟩ <;> cases e.symm.trans h
  · exact .inl ⟨rfl, by omega⟩
  · exact .inr ⟨rfl, heven, habove⟩

theorem cycle_of_illegal {s : State} {w : Word} (hfetch : fetch s = .ok w) (hillegal : legalWord w = false) :
    cycle s = .next ((s.setPc (s.pc + 2)).raise (.decodeFailure w s.pc)) := by
  obtain ⟨why, hdecode⟩ := (legalWord_eq_false_iff_decode w).1 hillegal
  exact cycle_of_decode_failure s w why hfetch hdecode

/-- Settles O14: the cycle advances PC and raises the fault; a step's cycle starts with the event taken off. -/
theorem illegalWordRaisesDecodeFailure : Obligations.IllegalWordRaisesDecodeFailure := by
  intro s w hfetch hillegal
  refine ⟨⟨_, cycle_of_illegal hfetch hillegal, rfl, rfl, (changesOnly_setPc s _).trans (changesOnly_raise _ _)⟩,
    fun hs he hdt => ⟨(s.popEvent.setPc (s.pc + 2)).raise (.decodeFailure w s.pc), ?_, rfl, rfl, rfl, ?_⟩⟩
  · rw [step_of_instr_of_dt_eq_zero hs he hdt]
    exact cycle_of_illegal (s := s.popEvent) hfetch hillegal
  · exact (((changesOnly_popEvent s).trans (changesOnly_setPc _ _)).trans (changesOnly_raise _ _)).mono (by simp)

/-- Settles O20: of the ways a step can go only the cycle's faults; it does so at the fetch, at the decoder, or in one of
the three instructions that fault. -/
theorem onlyTheListedFaultsEndARun : Obligations.OnlyTheListedFaultsEndARun := by
  intro s t f h hs ht
  rcases step_cases h with ⟨hended, _⟩ | ⟨_, ⟨_, rfl⟩ | ⟨_, _, rfl⟩ | ⟨he, hdt, hcycle⟩⟩
  · exact absurd hs hended
  · cases hs.symm.trans ht
  · cases hs.symm.trans ht
  refine ⟨he, hdt, ?_⟩
  rcases cycle_cases hcycle with ⟨e, hfetch, rfl⟩ | ⟨_, _, w, hfetch, hafter⟩
  · cases ht
    exact (fetch_error_cases (s := s.popEvent) hfetch).imp_right .inl
  refine .inr (.inr ⟨w, hfetch, ?_⟩)
  rcases hafter with ⟨why, hdecode, rfl⟩ | ⟨i, hdecode, hexec⟩
  · cases ht
    exact .inl ⟨rfl, (legalWord_eq_false_iff_decode w).2 ⟨why, hdecode⟩⟩
  obtain ⟨_, hcause⟩ := exec_faulted_cases hexec hs ht
  rw [fetchAddress_setPc_add_two] at hcause
  rcases hcause with ⟨rfl, hempty, hf⟩ | ⟨nnn, rfl, hfull, hf⟩ | ⟨x, y, n, r, rfl, hr, habove, hf⟩
  · exact .inr (.inl ⟨hf, hdecode, hempty⟩)
  · exact .inr (.inr (.inl ⟨hf, ⟨nnn, hdecode⟩, hfull⟩))
  · exact .inr (.inr (.inr ⟨x, y, n, r, hdecode, hr, habove, hf⟩))

/-! ### The outcome codes (R210) -/

theorem Fault.code_le_six (f : Fault) : f.code ≤ 6 := by cases f <;> simp [Fault.code]

theorem RunStatus.code_cases (r : RunStatus) : r.code = none ∨ ∃ k, k ≤ 6 ∧ r.code = some k := by
  cases r with
  | running => exact .inl rfl
  | halted => exact .inr ⟨0, by decide, rfl⟩
  | faulted f => exact .inr ⟨f.code, f.code_le_six, rfl⟩

/-- Settles O59: the code of a step is that of the run status it answers, and a load that is accepted keeps the run
status. -/
theorem outcomeCodes : Obligations.OutcomeCodes := by
  refine ⟨fun s hs => congrArg RunStatus.code hs, fun s => rfl, fun s t f h ht => ?_, fun s _ => ?_,
    fun image s h => ?_, fun image s hs h => ?_⟩
  · rw [h, Result.code, ht]
    cases f <;> rfl
  · obtain ⟨t, h⟩ := step_next s
    exact h ▸ t.status.code_cases
  · rw [loadImage_of_lt h]
    rfl
  · have hkept : (s.putBytes loadAddress image).status = s.status :=
      (changesOnly_putBytes s loadAddress image).keeps (c := .status) (by simp)
    rw [loadImage_of_le h, Result.code, hkept, hs, RunStatus.code]

end Sys2Proof.Machine

/-! PROOFS of the family 'other': the sample words (R77), the machine as it is created (R41, R241), the invariant at
reset. -/

namespace Sys2Proof.Machine

/-- Settles O1: each word is the encoding of its instruction, or in the range of its reason. -/
theorem sampleWordsDecode : Obligations.SampleWordsDecode := by
  simp only [Obligations.SampleWordsDecode, decode_eq_instr_iff, decode_eq_failure_iff, IllegalWord.covers]
  decide

/-! ### The machine as it is created (R41) -/

section Create
variable (c : Config) (dt0 st0 : Byte)

theorem byteAt_create_of_fontSize_le {a : Nat} (ha : fontSize ≤ a) : (State.create c dt0 st0).byteAt a = 0 :=
  dif_neg (Nat.not_lt.2 ha)

theorem reg_create (r : Reg) : (State.create c dt0 st0).reg r = 0 := Vector.getElem_replicate r.isLt

end Create

/-- Settles O8: memory lists nothing at creation, so a byte is FONT's or 0, and the other components are written out. -/
theorem creationState : Obligations.CreationState := by
  intro c dt0 st0
  exact ⟨(machineInv_create c dt0 st0).font, fun _ => byteAt_create_of_fontSize_le c dt0 st0, reg_create c dt0 st0,
    rfl, rfl, rfl, rfl, rfl, pixel_blank, rfl, rfl, rfl⟩

/-- Settles O55: reset is one of the creations. -/
theorem invariantAtReset : Obligations.InvariantAtReset := machineInv_create (Config.default .timerFirst) 0 0

end Sys2Proof.Machine
